-- ==== Sys2Proof/Word.lean ====
section
/-!
DEFINITION. The plain data of the block: the command word, bytes, bit sequences and byte
strings (spec/00_scope.md R11, R13), and the characters the rules name (R12).
-/

namespace Sys2Proof

/-- The 32-bit command word `CW` (spec/30_encoding.md R90). -/
abbrev Word := BitVec 32

/-- A byte, which is also one character of a sentence or of armored text (spec/00_scope.md R11). -/
abbrev Byte := BitVec 8

/-- A bit sequence, index 0 first on the wire (spec/00_scope.md R13). -/
abbrev Bits := List Bool

/-- A byte string, index 0 first on the wire (spec/00_scope.md R13). -/
abbrev Text := List Byte

namespace Ascii

/-- `'$'` (spec/00_scope.md R12). -/
abbrev dollar : Byte := 0x24#8
/-- `'!'` (spec/00_scope.md R12). -/
abbrev bang : Byte := 0x21#8
/-- `'*'` (spec/00_scope.md R12). -/
abbrev star : Byte := 0x2A#8
/-- `','` (spec/00_scope.md R12). -/
abbrev comma : Byte := 0x2C#8
/-- `'P'` (spec/00_scope.md R12). -/
abbrev upperP : Byte := 0x50#8

end Ascii

end Sys2Proof
end

