-- ==== Sys2Proof/Syntax.lean ====
section
/-!
DEFINITION. The fourteen commands of spec/30_encoding.md R94, one constructor for each row of
spec/opcode_table.json, and the four value kinds of spec/00_scope.md R16.
-/

namespace Sys2Proof

/-- The value kinds of a field (spec/00_scope.md R16). -/
inductive Kind where
  /-- kind 0, suffix `.U`: unsigned integer. -/
  | unsigned
  /-- kind 1, suffix `.S`: two's complement integer. -/
  | signed
  /-- kind 2, suffix `.E`: enumerated code. -/
  | enumerated
  /-- kind 3, suffix `.B`: boolean. -/
  | boolean
deriving DecidableEq, Repr

/-- The commands (spec/30_encoding.md R94). Operands have the widths of the command word's fields
(R91): an offset or a length is 16 bits, a width 7 bits, a type ID 6 bits. -/
inductive Instr where
  /-- `BF.INIT n` (spec/40_bitfield.md R131). -/
  | bfInit (n : BitVec 16)
  /-- `BF.APPEND.k wid` (spec/40_bitfield.md R133). -/
  | bfAppend (kind : Kind) (wid : BitVec 7)
  /-- `BF.PACK.k off, wid` (spec/40_bitfield.md R135). -/
  | bfPack (kind : Kind) (off : BitVec 16) (wid : BitVec 7)
  /-- `BF.UNPACK.k off, wid` (spec/40_bitfield.md R142). -/
  | bfUnpack (kind : Kind) (off : BitVec 16) (wid : BitVec 7)
  /-- `ARM.ENC` (spec/41_armor.md R162). -/
  | armEnc
  /-- `ARM.DEC` (spec/41_armor.md R165). -/
  | armDec
  /-- `AIS.DISPATCH` (spec/42_ais_dispatch.md R182). -/
  | aisDispatch
  /-- `AIS.CAST id` (spec/42_ais_dispatch.md R187). -/
  | aisCast (id : BitVec 6)
  /-- `NMEA.PARSE` (spec/43_nmea.md R204). -/
  | nmeaParse
  /-- `NMEA.RENDER` (spec/43_nmea.md R216). -/
  | nmeaRender
  /-- `FRAG.BEGIN` (spec/44_fragment.md R245). -/
  | fragBegin
  /-- `FRAG.ADD` (spec/44_fragment.md R246). -/
  | fragAdd
  /-- `FRAG.END` (spec/44_fragment.md R247). -/
  | fragEnd
  /-- `FRAG.FORM` (spec/44_fragment.md R249). -/
  | fragForm
deriving DecidableEq, Repr

end Sys2Proof
end

