-- ==== Sys2Proof/WellFormed.lean ====
section
/-!
DEFINITION. Which commands are well formed: the checks of spec/30_encoding.md R96 that the widths
of an instruction's fields do not already make (a field width of 1 to 64 bits).
-/

namespace Sys2Proof

/-- A legal field width, 1 to 64 (spec/30_encoding.md R93, R96). -/
def legalWidth (wid : BitVec 7) : Bool :=
  1 ≤ wid.toNat && wid.toNat ≤ 64

/-- The well-formed commands (spec/30_encoding.md R96). Reserved bits, unused fields and the upper
bits of a type ID have no place in an Instr, so only a width can be wrong. -/
def Instr.wellFormed : Instr → Bool
  | .bfInit _ => true
  | .bfAppend _ wid => legalWidth wid
  | .bfPack _ _ wid => legalWidth wid
  | .bfUnpack _ _ wid => legalWidth wid
  | .armEnc => true
  | .armDec => true
  | .aisDispatch => true
  | .aisCast _ => true
  | .nmeaParse => true
  | .nmeaRender => true
  | .fragBegin => true
  | .fragAdd => true
  | .fragEnd => true
  | .fragForm => true

end Sys2Proof
end

