-- ==== Sys2Proof/Decode.lean ====
section
/-!
DEFINITION. The decoder of spec/30_encoding.md R95, total on all 2^32 words and rejecting by name,
and after it the encoder, written from the same tables (R91, R92, R94).
-/

namespace Sys2Proof

/-- Why a word is no command (spec/30_encoding.md R96). -/
inductive IllegalWord where
  /-- `CW[17:16]` is not zero. -/
  | reservedBitsSet
  /-- `CW[31:27]` is none of the fourteen operations. -/
  | unusedOperation
  /-- A field the format does not use is not zero. -/
  | unusedFieldSet
  /-- `wid` is 0 or above 64. -/
  | widthOutOfRange
  /-- `imm` of `AIS.CAST` is above 63. -/
  | typeIdOutOfRange
deriving DecidableEq, Repr

/-- `CW[31:27]` (spec/30_encoding.md R91). -/
def opField (cw : Word) : BitVec 5 := cw.extractLsb' 27 5

/-- `CW[26:25]` (spec/30_encoding.md R91). -/
def kindField (cw : Word) : BitVec 2 := cw.extractLsb' 25 2

/-- `CW[24:18]` (spec/30_encoding.md R91). -/
def widField (cw : Word) : BitVec 7 := cw.extractLsb' 18 7

/-- `CW[17:16]` (spec/30_encoding.md R91). -/
def rsvField (cw : Word) : BitVec 2 := cw.extractLsb' 16 2

/-- `CW[15:0]` (spec/30_encoding.md R91). -/
def immField (cw : Word) : BitVec 16 := cw.extractLsb' 0 16

/-- The value kind a 2-bit code names (spec/00_scope.md R16). -/
def Kind.ofCode (code : BitVec 2) : Kind :=
  if code = 0#2 then .unsigned
  else if code = 1#2 then .signed
  else if code = 2#2 then .enumerated
  else .boolean

/-- The 2-bit code of a value kind (spec/00_scope.md R16). -/
def Kind.code : Kind → BitVec 2
  | .unsigned => 0#2
  | .signed => 1#2
  | .enumerated => 2#2
  | .boolean => 3#2

/-- Format N: everything but `op` must be zero (spec/30_encoding.md R92, R95). -/
def decodeFormatN (i : Instr) (cw : Word) : Except IllegalWord Instr :=
  if kindField cw ≠ 0#2 ∨ widField cw ≠ 0#7 ∨ immField cw ≠ 0#16 then .error .unusedFieldSet
  else .ok i

/-- Format I as `BF.INIT` uses it: all of `imm` (spec/30_encoding.md R92, R95). -/
def decodeInit (cw : Word) : Except IllegalWord Instr :=
  if kindField cw ≠ 0#2 ∨ widField cw ≠ 0#7 then .error .unusedFieldSet
  else .ok (.bfInit (immField cw))

/-- Format I as `AIS.CAST` uses it: `imm[5:0]`, the upper bits zero (spec/30_encoding.md R92, R95). -/
def decodeCast (cw : Word) : Except IllegalWord Instr :=
  if kindField cw ≠ 0#2 ∨ widField cw ≠ 0#7 then .error .unusedFieldSet
  else if 63 < (immField cw).toNat then .error .typeIdOutOfRange
  else .ok (.aisCast ((immField cw).extractLsb' 0 6))

/-- Format W (spec/30_encoding.md R92, R95). -/
def decodeAppend (cw : Word) : Except IllegalWord Instr :=
  if immField cw ≠ 0#16 then .error .unusedFieldSet
  else if legalWidth (widField cw) = false then .error .widthOutOfRange
  else .ok (.bfAppend (Kind.ofCode (kindField cw)) (widField cw))

/-- Format F (spec/30_encoding.md R92, R95). -/
def decodeFormatF (mk : Kind → BitVec 16 → BitVec 7 → Instr) (cw : Word) :
    Except IllegalWord Instr :=
  if legalWidth (widField cw) = false then .error .widthOutOfRange
  else .ok (mk (Kind.ofCode (kindField cw)) (immField cw) (widField cw))

/-- The decoder (spec/30_encoding.md R95). -/
def decode (cw : Word) : Except IllegalWord Instr :=
  if rsvField cw ≠ 0#2 then .error .reservedBitsSet
  else if opField cw = 0x01#5 then decodeInit cw
  else if opField cw = 0x02#5 then decodeAppend cw
  else if opField cw = 0x03#5 then decodeFormatF .bfPack cw
  else if opField cw = 0x04#5 then decodeFormatF .bfUnpack cw
  else if opField cw = 0x08#5 then decodeFormatN .armEnc cw
  else if opField cw = 0x09#5 then decodeFormatN .armDec cw
  else if opField cw = 0x0C#5 then decodeFormatN .aisDispatch cw
  else if opField cw = 0x0D#5 then decodeCast cw
  else if opField cw = 0x10#5 then decodeFormatN .nmeaParse cw
  else if opField cw = 0x11#5 then decodeFormatN .nmeaRender cw
  else if opField cw = 0x14#5 then decodeFormatN .fragBegin cw
  else if opField cw = 0x15#5 then decodeFormatN .fragAdd cw
  else if opField cw = 0x16#5 then decodeFormatN .fragEnd cw
  else if opField cw = 0x17#5 then decodeFormatN .fragForm cw
  else .error .unusedOperation

/-- What the decoder reads from a word numbered as spec/opcode_table.json numbers it. The command
word is presented whole and has no byte view (spec/20_memory.md R65, R69), so bit 0 of the number
is `CW[0]`; all fourteen rows have 32 bits (log entry 18). -/
def decodeTableWord (nbits w : Nat) : Option Instr :=
  match decode (BitVec.ofNat 32 (w % 2 ^ nbits)) with
  | .ok i => some i
  | .error _ => none

/-- A command word from its fields, `rsv` zero (spec/30_encoding.md R91). -/
def assemble (op : BitVec 5) (kind : BitVec 2) (wid : BitVec 7) (imm : BitVec 16) : Word :=
  op ++ kind ++ wid ++ 0#2 ++ imm

/-- The command word of an instruction (spec/30_encoding.md R91, R92, R94). -/
def encode : Instr → Word
  | .bfInit n => assemble 0x01#5 0#2 0#7 n
  | .bfAppend kind wid => assemble 0x02#5 kind.code wid 0#16
  | .bfPack kind off wid => assemble 0x03#5 kind.code wid off
  | .bfUnpack kind off wid => assemble 0x04#5 kind.code wid off
  | .armEnc => assemble 0x08#5 0#2 0#7 0#16
  | .armDec => assemble 0x09#5 0#2 0#7 0#16
  | .aisDispatch => assemble 0x0C#5 0#2 0#7 0#16
  | .aisCast id => assemble 0x0D#5 0#2 0#7 (id.setWidth 16)
  | .nmeaParse => assemble 0x10#5 0#2 0#7 0#16
  | .nmeaRender => assemble 0x11#5 0#2 0#7 0#16
  | .fragBegin => assemble 0x14#5 0#2 0#7 0#16
  | .fragAdd => assemble 0x15#5 0#2 0#7 0#16
  | .fragEnd => assemble 0x16#5 0#2 0#7 0#16
  | .fragForm => assemble 0x17#5 0#2 0#7 0#16

end Sys2Proof
end

