-- ==== Sys2Proof/Config.lean ====
section
/-!
DEFINITION. What an implementation fixes (spec/00_scope.md R6 to R10; spec/92_eei_decisions.md,
open parameters) as plain data, the two registries read from it, the constraints the sources put
on it, and the one free value of the model. The spec makes these parameters of the step function
(spec/10_state.md R21); the type of `step` is fixed, so a Config travels in State and nothing
writes it (log entry 1).
-/

namespace Sys2Proof

/-- `VALW`, the width of `VAL` and `RES` and the widest field one command moves
(spec/00_scope.md R6). -/
abbrev valw : Nat := 64

/-- A declared size in bits, the pair `(min, max)` of `MSGREG`; 10 bits each, as `MMIN` and `MMAX`
hold them (spec/00_scope.md R10, spec/10_state.md R31). -/
structure SizeRange where
  min : BitVec 10
  max : BitVec 10
deriving DecidableEq, Repr

/-- One row of a `LAYOUT` table, `(name, offset, width, kind)` (spec/00_scope.md R10,
spec/40_bitfield.md R150). -/
structure FieldDescriptor where
  name : String
  offset : Nat
  width : Nat
  kind : Kind
deriving DecidableEq, Repr

/-- The configuration of one block (spec/00_scope.md R7 to R10). -/
structure Config where
  /-- `BCAP`, capacity of `B` in bits (R7). -/
  bcap : Nat
  /-- `TCAP`, capacity of `T`, of `A` and of the sentence registers in bytes (R8). -/
  tcap : Nat
  /-- The first of the two carrier tags, `CARRIER_TAGS` (R9). -/
  carrierTag1 : Text
  /-- The second of the two carrier tags (R9). -/
  carrierTag2 : Text
  /-- The open entries of `TAGREG`: tag and field count; a tag not listed maps to `none`
  (R9, log entry 3). -/
  openTags : List (Text × Nat)
  /-- The open entries of `MSGREG`: type ID and declared size; an ID not listed maps to `none`
  (R10). -/
  openTypes : List (BitVec 6 × SizeRange)
  /-- `LAYOUT`: type ID and its field descriptors, the first of two entries for one ID being the
  layout; no command reads it (R10, R150). -/
  layouts : List (BitVec 6 × List FieldDescriptor)
deriving DecidableEq, Repr

namespace Config

/-- The tag `"ZZZ"`, unregistered in every configuration (spec/00_scope.md R9). -/
abbrev tagZZZ : Text := [0x5A#8, 0x5A#8, 0x5A#8]

/-- The entry an association list gives a key. -/
def lookup {α β : Type} [DecidableEq α] (key : α) : List (α × β) → Option β
  | [] => none
  | (k, v) :: rest => if k = key then some v else lookup key rest

/-- `tag in CARRIER_TAGS` (spec/00_scope.md R9). -/
def isCarrier (c : Config) (tag : Text) : Bool :=
  tag = c.carrierTag1 || tag = c.carrierTag2

/-- `TAGREG`: the two carrier tags map to 6, `"ZZZ"` to `none`, every other entry is open
(spec/00_scope.md R9). -/
def tagReg (c : Config) (tag : Text) : Option Nat :=
  if c.isCarrier tag then some 6
  else if tag = tagZZZ then none
  else lookup tag c.openTags

/-- `MSGREG`: the fixed entries, then the open ones; 0 and 28 to 63 are `none`
(spec/00_scope.md R10, spec/42_ais_dispatch.md R180). -/
def msgReg (c : Config) (tid : BitVec 6) : Option SizeRange :=
  if tid = 1#6 ∨ tid = 2#6 ∨ tid = 3#6 then some ⟨168#10, 168#10⟩
  else if tid = 19#6 then some ⟨312#10, 312#10⟩
  else if tid = 0#6 ∨ 28 ≤ tid.toNat then none
  else lookup tid c.openTypes

/-- What the sources fix of one layout: every field inside the largest declared size, and an
unsigned 6-bit field at offset 0 (spec/00_scope.md R10). -/
def layoutFits (r : SizeRange) (fields : List FieldDescriptor) : Bool :=
  fields.all (fun d => d.offset + d.width ≤ r.max.toNat)
    && fields.any (fun d => d.offset = 0 && d.width = 6 && d.kind = .unsigned)

/-- `LAYOUT` of a type: its field descriptors, `none` where the configuration gives the type no
list (spec/00_scope.md R10). -/
def layout (c : Config) (tid : BitVec 6) : Option (List FieldDescriptor) := lookup tid c.layouts

/-- What the sources fix of the layout of one type: a registered type has one, which fits its
declared size, and an unregistered type has none (spec/00_scope.md R10 "for each registered
type"). -/
def layoutOk (c : Config) (tid : BitVec 6) : Bool :=
  match c.msgReg tid, c.layout tid with
  | some r, some fields => layoutFits r fields
  | some _, none => false
  | none, some _ => false
  | none, none => true

/-- Every one of the 64 type IDs has its layout as the sources ask (spec/00_scope.md R10). -/
def layoutsOk (c : Config) : Bool := (List.range 64).all (fun n => c.layoutOk (BitVec.ofNat 6 n))

/-- The constraints the sources put on the parameters (spec/00_scope.md R7 to R10). -/
abbrev wf (c : Config) : Prop :=
  936 ≤ c.bcap ∧ 156 ≤ c.tcap
    ∧ c.carrierTag1.length = 3 ∧ c.carrierTag2.length = 3
    ∧ c.carrierTag1 ≠ c.carrierTag2
    ∧ c.carrierTag1 ≠ tagZZZ ∧ c.carrierTag2 ≠ tagZZZ
    ∧ (∀ e ∈ c.openTypes,
        6 ≤ e.2.min.toNat ∧ e.2.min.toNat ≤ e.2.max.toNat ∧ e.2.max.toNat ≤ 936)
    ∧ c.layoutsOk = true

/-- Free value: the payload `S.F[4]` when `S.F` has fewer than five fields. No rule gives it a
value; a state in which `FRAG.ADD` would read it breaks the meaning of `CVALID`
(spec/10_state.md R39), so no run reaches one (log entry 9). -/
opaque absentField : List Text → Text

/-- The layout of types 1, 2 and 3, from general knowledge in the spec itself
(PRESUMED; spec/93_implementation_defined.md G2, log entry 4). -/
def positionReport : List FieldDescriptor :=
  [⟨"message type", 0, 6, .unsigned⟩, ⟨"repeat indicator", 6, 2, .unsigned⟩,
   ⟨"MMSI", 8, 30, .unsigned⟩, ⟨"navigation status", 38, 4, .enumerated⟩,
   ⟨"rate of turn", 42, 8, .signed⟩, ⟨"speed over ground", 50, 10, .unsigned⟩,
   ⟨"position accuracy", 60, 1, .boolean⟩, ⟨"longitude", 61, 28, .signed⟩,
   ⟨"latitude", 89, 27, .signed⟩, ⟨"course over ground", 116, 12, .unsigned⟩,
   ⟨"true heading", 128, 9, .unsigned⟩, ⟨"time stamp", 137, 6, .unsigned⟩,
   ⟨"maneuver indicator", 143, 2, .enumerated⟩, ⟨"spare", 145, 3, .unsigned⟩,
   ⟨"RAIM flag", 148, 1, .boolean⟩, ⟨"radio status", 149, 19, .unsigned⟩]

/-- The one configuration the spec writes out, that of spec/95_test_vectors.md: the default
capacities, `TAGREG_T` of spec/43_nmea.md, no open message type registered
(DESIGN CHOICE as the configuration at reset; log entry 2). -/
def vectors : Config where
  bcap := 1024
  tcap := 256
  carrierTag1 := [0x56#8, 0x44#8, 0x4D#8]                                -- "VDM"
  carrierTag2 := [0x56#8, 0x44#8, 0x4F#8]                                -- "VDO"
  openTags :=
    [([0x58#8, 0x59#8, 0x5A#8], 3),                                      -- "XYZ"
     ([0x4E#8, 0x4F#8, 0x46#8], 0),                                      -- "NOF"
     ([0x50#8, 0x47#8, 0x52#8, 0x4D#8, 0x45#8], 6),                      -- "PGRME"
     ([0x50#8], 0)]                                                      -- "P"
  openTypes := []
  layouts :=
    [(1#6, positionReport), (2#6, positionReport), (3#6, positionReport),
     (19#6, [⟨"message type", 0, 6, .unsigned⟩])]

end Config

end Sys2Proof
end

