-- ==== Sys2Proof/Machine/State.lean ====
section
/-!
DEFINITION. The state of one block instance (spec/10_state.md R21, R23 to R43), the host's moves
(R44), the error codes' names (spec/60_exceptions.md R260), the reasons a step can stop, and reset
(R46, spec/70_reset_and_hazards.md R300).
-/

namespace Sys2Proof.Machine

/-- The eleven outcomes a command reports (spec/60_exceptions.md R260). Codes 11 to 15 are never
written, so there is no twelfth (spec/93_implementation_defined.md U2). -/
inductive Err where
  | ok
  | format
  | checksum
  | unknownSentence
  | unknownMessage
  | sizeMismatch
  | valueRange
  | bounds
  | notCarrier
  | capacity
  | illegal
deriving DecidableEq, Repr

/-- The sentence register file `S` (spec/10_state.md R33 to R37). -/
structure Sentence where
  /-- `S.START` (R33). -/
  start : Byte
  /-- `S.TALKER` (R34). -/
  talker : Text
  /-- `S.TAG` (R35). -/
  tag : Text
  /-- `S.F` (R36). -/
  fields : List Text
deriving DecidableEq, Repr

/-- The carrier registers `C` (spec/10_state.md R38). -/
structure Carrier where
  /-- `C.COUNT`. -/
  count : BitVec 8
  /-- `C.INDEX`. -/
  index : BitVec 8
  /-- `C.SEQP`. -/
  seqPresent : Bool
  /-- `C.SEQ`. -/
  seq : BitVec 4
  /-- `C.CHANP`. -/
  chanPresent : Bool
  /-- `C.CHAN`. -/
  chan : Byte
  /-- `C.FILL`. -/
  fill : BitVec 3
deriving DecidableEq, Repr

/-- A write the host may make between commands (spec/10_state.md R44). -/
inductive HostWrite where
  | val (v : BitVec 64)
  | fill (v : BitVec 3)
  | t (v : Text)
  | b (v : Bits)
  | start (v : Byte)
  | talker (v : Text)
  | tag (v : Text)
  | fields (v : List Text)
  | count (v : BitVec 8)
  | index (v : BitVec 8)
  | seqPresent (v : Bool)
  | seq (v : BitVec 4)
  | chanPresent (v : Bool)
  | chan (v : Byte)
  | carrierFill (v : BitVec 3)
deriving DecidableEq, Repr

/-- What the host may read: every element of spec/10_state.md R23 to R43, each single bit `B[i]`
(R25), the names of lengths `BLEN`, `TLEN`, `S.NF`, `ALEN`, and an entry of either registry.
DESIGN CHOICE: that the host may read a registry entry at all (log entry 24); spec/20_memory.md
R62 and R72 speak of such a read, and the read row of R44 lists only R23 to R43. -/
inductive Element where
  | val | res | b | bit (i : Nat) | blen | t | tlen | fill | status | csinfo
  | mtype | mmin | mmax | mvalid
  | start | talker | tag | fields | nf
  | count | index | seqPresent | seq | chanPresent | chan | carrierFill | cvalid
  | a | alen | afill | aany | aerrc
  | msgReg (tid : BitVec 6) | tagReg (tag : Text)
deriving DecidableEq, Repr

/-- What a host read returns. -/
inductive Reading where
  /-- A register, a flag or a length, as a number. -/
  | number (n : Nat)
  /-- A bit sequence. -/
  | bits (v : Bits)
  /-- A byte string. -/
  | text (v : Text)
  /-- A list of byte strings. -/
  | texts (v : List Text)
  /-- An entry of `MSGREG`: a declared size, or `none`. -/
  | declared (v : Option SizeRange)
  /-- An entry of `TAGREG`: a field count, or `none`. -/
  | fieldCount (v : Option Nat)
deriving DecidableEq, Repr

/-- One item of the host's list of actions and commands (spec/10_state.md R44,
spec/70_reset_and_hazards.md R321). -/
inductive HostItem where
  | write (w : HostWrite)
  | read (e : Element)
  | command (cw : Word)
  | reset
deriving DecidableEq, Repr

/-- The whole architectural state (spec/10_state.md R21), and two fields of the model's own:
`cfg` (log entry 1) and `pending` (log entry 5). -/
structure State where
  /-- `VAL` (R23). -/
  val : BitVec 64
  /-- `RES` (R24). -/
  res : BitVec 64
  /-- `B` (R25); `BLEN` is its length. -/
  b : Bits
  /-- `T` (R26); `TLEN` is its length. -/
  t : Text
  /-- `FILL` (R27). -/
  fill : BitVec 3
  /-- `STATUS` (R28): `ERR` in bits 3 to 0, `BUSY` bit 4, the rest reserved. -/
  status : BitVec 8
  /-- `CSINFO` (R29): `CS_RX` in bits 15 to 8, `CS_CALC` in bits 7 to 0. -/
  csinfo : BitVec 16
  /-- `MTYPE` (R30). -/
  mtype : BitVec 6
  /-- `MMIN` (R31). -/
  mmin : BitVec 10
  /-- `MMAX` (R31). -/
  mmax : BitVec 10
  /-- `MVALID` (R32). -/
  mvalid : Bool
  /-- `S` (R33 to R37). -/
  sent : Sentence
  /-- `C` (R38). -/
  carr : Carrier
  /-- `CVALID` (R39). -/
  cvalid : Bool
  /-- `A` (R40); `ALEN` is its length. -/
  a : Text
  /-- `AFILL` (R41). -/
  afill : BitVec 3
  /-- `AANY` (R42). -/
  aany : Bool
  /-- `AERRC` (R43). -/
  aerrc : BitVec 4
  /-- The implementation parameters (spec/00_scope.md R6 to R10); nothing writes them. -/
  cfg : Config
  /-- What the host has yet to present, first item first. -/
  pending : List HostItem
deriving DecidableEq, Repr

/-- Reasons the machine itself stops: none. "There are no fatal/unrecoverable conditions inside
the core" (spec/60_exceptions.md R263): an error of a command is a next state with `STATUS.ERR`
written, and no command ends a run. Safe: the model never stops where the block goes on. -/
inductive Fault
deriving DecidableEq, Repr

/-- Reasons a step gives no next state. All but the first answer a move of the host that the spec
does not give it (spec/10_state.md R44); no command word is ever refused. -/
inductive Refusal where
  /-- An instruction without a meaning; no arm of `exec` raises it. Safe. -/
  | notModelled (mnemonic : String)
  /-- The host writes a sequence longer than its buffer holds, raised by `hostWrite`
  (R44 "any bit sequence of length `<= BCAP`"). Safe: the model only stops earlier. -/
  | hostWriteTooLong
  /-- The host reads `B[i]` with `i >= BLEN`, raised by `takeItem` (R25 "any bit `B[i]`,
  `i < BLEN`"). Safe. -/
  | hostReadPastEnd
  /-- The host writes, reads or issues a command while `BUSY = 1`, raised by `step`
  (spec/70_reset_and_hazards.md R310). Unsafe only in that real hardware might let the host in;
  the spec gives it no such move (log entry 7). -/
  | hostActsWhileBusy
deriving DecidableEq, Repr

/-- The outcome of a command or a step. -/
abbrev Result := Host.Outcome State Fault Refusal

/-- An all-zero carrier register file (spec/10_state.md R46). -/
def Carrier.zero : Carrier := ⟨0#8, 0#8, false, 0#4, false, 0#8, 0#3⟩

/-- An empty sentence register file (spec/10_state.md R46). -/
def Sentence.empty : Sentence := ⟨0#8, [], [], []⟩

/-- The values of spec/10_state.md R46 under a configuration, nothing pending. -/
def State.resetWith (cfg : Config) : State where
  val := 0#64
  res := 0#64
  b := []
  t := []
  fill := 0#3
  status := 0#8
  csinfo := 0#16
  mtype := 0#6
  mmin := 0#10
  mmax := 0#10
  mvalid := false
  sent := Sentence.empty
  carr := Carrier.zero
  cvalid := false
  a := []
  afill := 0#3
  aany := false
  aerrc := 0#4
  cfg := cfg
  pending := []

/-- The machine right after reset (spec/10_state.md R46), under the configuration of
spec/95_test_vectors.md (DESIGN CHOICE, log entry 2). -/
def State.reset : State := State.resetWith Config.vectors

end Sys2Proof.Machine
end

