-- ==== Sys2Proof/Machine/Flags.lean ====
section
/-!
DEFINITION. The status side of the block: the numbers of the error codes
(spec/60_exceptions.md R260), the fields of `STATUS` and `CSINFO` (spec/10_state.md R28, R29), and
how a command, a write to `B` or a host write to `S` or `C` changes the flags (R32, R39). There is
no other flag and no condition code (R45).
-/

namespace Sys2Proof.Machine

/-- The number of an error code (spec/60_exceptions.md R260). -/
def Err.code : Err → BitVec 4
  | .ok => 0#4
  | .format => 1#4
  | .checksum => 2#4
  | .unknownSentence => 3#4
  | .unknownMessage => 4#4
  | .sizeMismatch => 5#4
  | .valueRange => 6#4
  | .bounds => 7#4
  | .notCarrier => 8#4
  | .capacity => 9#4
  | .illegal => 10#4

/-- `STATUS` at the end of a command: `ERR` as given, `BUSY = 0`, the reserved bits 0
(spec/10_state.md R28, spec/60_exceptions.md R268; log entry 17). -/
def statusWord (code : BitVec 4) : BitVec 8 := 0#3 ++ 0#1 ++ code

/-- `STATUS[3:0]`, `ERR` (spec/10_state.md R28). -/
def State.err (s : State) : BitVec 4 := s.status.extractLsb' 0 4

/-- `STATUS[4]`, `BUSY` (spec/10_state.md R28). -/
def State.busy (s : State) : Bool := s.status.getLsbD 4

/-- `CSINFO[15:8]`, `CS_RX` (spec/10_state.md R29). -/
def State.csRx (s : State) : Byte := s.csinfo.extractLsb' 8 8

/-- `CSINFO[7:0]`, `CS_CALC` (spec/10_state.md R29). -/
def State.csCalc (s : State) : Byte := s.csinfo.extractLsb' 0 8

/-- The end of a command with the 4-bit code `code` (spec/00_scope.md R15 `raise`, `done`). -/
def State.setErr (code : BitVec 4) (s : State) : State := { s with status := statusWord code }

/-- `BUSY <- 0`, the block idle (spec/10_state.md R28). -/
def State.setIdle (s : State) : State := { s with status := s.status &&& 0xEF#8 }

/-- Both checksum values, as an `NMEA.PARSE` that ends in `E_CHECKSUM` writes them
(spec/10_state.md R29, spec/43_nmea.md R207). -/
def State.setChecksums (rx computed : Byte) (s : State) : State := { s with csinfo := rx ++ computed }

/-- A successful write of `B`, which clears `MVALID` (spec/10_state.md R25, R32). -/
def State.writeB (v : Bits) (s : State) : State := { s with b := v, mvalid := false }

/-- A host write to a carrier register, which clears `CVALID` (spec/10_state.md R37, R44). -/
def State.touchCarrier (c : Carrier) (s : State) : State := { s with carr := c, cvalid := false }

/-- A write to the sentence registers outside a parse, which clears `CVALID`
(spec/10_state.md R37, R39). -/
def State.touchSentence (x : Sentence) (s : State) : State := { s with sent := x, cvalid := false }

end Sys2Proof.Machine
end

