-- ==== Sys2Proof/Machine/Operands.lean ====
section
/-!
DEFINITION. The operand forms of the commands: the value a pack or an append stores
(spec/40_bitfield.md R132), reading and writing a field of the bit space (spec/00_scope.md R15
`BitRead`, `BitWrite`; spec/20_memory.md R63), the extension of an unpacked value (R142), and the
payload a fragment command takes from the sentence registers.
-/

namespace Sys2Proof.Machine

/-- `fv(kind, wid, VAL)` before its `wid` low bits are taken: `VAL` itself, or 1 or 0 for a boolean
(spec/40_bitfield.md R132). -/
def fieldValue (kind : Kind) (val : BitVec 64) : BitVec 64 :=
  match kind with
  | .unsigned => val
  | .signed => val
  | .enumerated => val
  | .boolean => if val = 0#64 then 0#64 else 1#64

/-- The low `w` bits of a value, most significant first: `[v[w-1], ..., v[0]]`
(spec/20_memory.md R63, spec/40_bitfield.md R133). -/
def fieldBits {n : Nat} : Nat → BitVec n → Bits
  | 0, _ => []
  | w + 1, v => v.getLsbD w :: fieldBits w v

/-- A bit sequence as an unsigned number, first bit most significant
(spec/00_scope.md R15 `BitRead`). -/
def bitsToNat : Bits → Nat
  | [] => 0
  | x :: xs => x.toNat * 2 ^ xs.length + bitsToNat xs

/-- `BitRead(off, w)` (spec/00_scope.md R15); used only when `off + w <= |B|`. -/
def bitRead (b : Bits) (off w : Nat) : Nat := bitsToNat ((b.drop off).take w)

/-- `BitWrite(off, w, v)` (spec/00_scope.md R15); used only when `off + w <= |B|`. -/
def bitWrite {n : Nat} (b : Bits) (off w : Nat) (v : BitVec n) : Bits :=
  b.take off ++ fieldBits w v ++ b.drop (off + w)

/-- `to_signed_w(u)` (spec/00_scope.md R14). -/
def toSigned (w u : Nat) : Int :=
  if u < 2 ^ (w - 1) then (u : Int) else (u : Int) - 2 ^ w

/-- The 64-bit result of an unpack: zero extension, sign extension, or the test for zero
(spec/40_bitfield.md R142). -/
def extendValue (kind : Kind) (w u : Nat) : BitVec 64 :=
  match kind with
  | .unsigned => BitVec.ofNat 64 u
  | .enumerated => BitVec.ofNat 64 u
  | .signed => BitVec.ofInt 64 (toSigned w u)
  | .boolean => if u = 0 then 0#64 else 1#64

/-- `S.F[4]`, the armored payload of a carrier sentence (spec/44_fragment.md R246). A list of fewer
than five fields has none: a free value (log entry 9). -/
def carrierPayload (fields : List Text) : Text :=
  match fields[4]? with
  | some p => p
  | none => Config.absentField fields

end Sys2Proof.Machine
end

