-- ==== Sys2Proof/Machine/Ops.lean ====
section
/-!
DEFINITION. The named operations the commands share: how a command ends, with or without an error
(spec/00_scope.md R15, spec/60_exceptions.md R262, R268); the text primitives of R15; the armor
alphabet (spec/41_armor.md R160, R161); the grammar of the carrier fields (spec/44_fragment.md
R241); and the capacities of the buffers (spec/10_state.md R25, R26, R40).
-/

namespace Sys2Proof.Machine

/-! ### The end of a command -/

/-- `raise E`: the command ends with `STATUS.ERR <- E` and nothing else changed; the meaning has
already written the diagnostic registers its rule names. This is the block's whole "exception
entry": no handler, no vector, no saved register (spec/00_scope.md R15, spec/60_exceptions.md
R262, R268). There is no return from it: the host goes on with any command (R269). -/
def raise (e : Err) (s : State) : Result := .next (s.setErr e.code)

/-- `raise` with the code a register holds, as `raise AERRC` (spec/44_fragment.md R246, R247;
log entry 19). -/
def raiseCode (code : BitVec 4) (s : State) : Result := .next (s.setErr code)

/-- `done`: the command ends with `STATUS.ERR <- OK` (spec/00_scope.md R15). -/
def done (s : State) : Result := .next (s.setErr Err.ok.code)

/-! ### Byte strings (spec/00_scope.md R13, R15) -/

/-- `s[lo .. hi-1]`: the bytes from index `lo` up to, not including, `hi`
(spec/00_scope.md R13). -/
def slice (s : Text) (lo hi : Nat) : Text := (s.take hi).drop lo

/-- The least index at which a byte occurs. -/
def indexOf (c : Byte) : Text → Option Nat
  | [] => none
  | x :: xs => if x = c then some 0 else (indexOf c xs).map (· + 1)

/-- `find(s, c, lo, hi)`: the least index `i` with `lo <= i < hi` and `s[i] = c`, or `none`
(spec/00_scope.md R15). -/
def find (s : Text) (c : Byte) (lo hi : Nat) : Option Nat :=
  (indexOf c (slice s lo hi)).map (· + lo)

/-- `split(s, c)` (spec/00_scope.md R15): one more piece than `s` has occurrences of `c`. -/
def split (c : Byte) : Text → List Text
  | [] => [[]]
  | x :: xs =>
    if x = c then [] :: split c xs
    else
      match split c xs with
      | [] => [[x]]
      | piece :: pieces => (x :: piece) :: pieces

/-- `xor8(s)` (spec/00_scope.md R15, spec/43_nmea.md R202). -/
def xor8 : Text → Byte
  | [] => 0#8
  | x :: xs => x ^^^ xor8 xs

/-- `hexdigit(d)`, upper case (spec/00_scope.md R15). -/
def hexDigit (d : BitVec 4) : Byte :=
  if d.toNat < 10 then BitVec.ofNat 8 (0x30 + d.toNat) else BitVec.ofNat 8 (0x41 + (d.toNat - 10))

/-- `hex2(v)`, high nibble first (spec/00_scope.md R15, spec/43_nmea.md R203). -/
def hex2 (v : Byte) : Text := [hexDigit (v.extractLsb' 4 4), hexDigit (v.extractLsb' 0 4)]

/-- The value of a checksum digit on parse; lower case is no digit (spec/43_nmea.md R203). -/
def hexValue (c : Byte) : Option (BitVec 4) :=
  if 0x30 ≤ c.toNat ∧ c.toNat ≤ 0x39 then some (BitVec.ofNat 4 (c.toNat - 0x30))
  else if 0x41 ≤ c.toNat ∧ c.toNat ≤ 0x46 then some (BitVec.ofNat 4 (c.toNat - 0x41 + 10))
  else none

/-- A decimal digit's byte. -/
def decDigit (d : Nat) : Byte := BitVec.ofNat 8 (0x30 + d)

/-- The decimal digits of `n`, most significant first, for fuel above the number of digits. -/
def decDigits : Nat → Nat → Text
  | 0, _ => []
  | fuel + 1, n => if n < 10 then [decDigit n] else decDigits fuel (n / 10) ++ [decDigit (n % 10)]

/-- `dec(n)`: decimal without leading zeros, `dec(0) = "0"` (spec/00_scope.md R15). -/
def dec (n : Nat) : Text := decDigits (n + 1) n

/-! ### The armor alphabet (spec/41_armor.md R160, R161) -/

/-- `enc6(v)` (spec/41_armor.md R160). -/
def enc6 (v : BitVec 6) : Byte :=
  if v.toNat ≤ 39 then BitVec.ofNat 8 (0x30 + v.toNat) else BitVec.ofNat 8 (0x38 + v.toNat)

/-- `dec6(c)`, `none` for `invalid` (spec/41_armor.md R161). -/
def dec6 (c : Byte) : Option (BitVec 6) :=
  if 0x30 ≤ c.toNat ∧ c.toNat ≤ 0x57 then some (BitVec.ofNat 6 (c.toNat - 0x30))
  else if 0x60 ≤ c.toNat ∧ c.toNat ≤ 0x77 then some (BitVec.ofNat 6 (c.toNat - 0x38))
  else none

/-! ### The carrier fields (spec/44_fragment.md R241) -/

/-- A decimal digit and its value. -/
def decValue (c : Byte) : Option Nat :=
  if 0x30 ≤ c.toNat ∧ c.toNat ≤ 0x39 then some (c.toNat - 0x30) else none

/-- The number a string of decimal digits writes after the digits already read, most significant
digit first; `none` when some byte is no digit. -/
def decNumber : Nat → Text → Option Nat
  | acc, [] => some acc
  | acc, c :: cs =>
    match decValue c with
    | some d => decNumber (10 * acc + d) cs
    | none => none

/-- fragment_count and fragment_index: 1 to 3 decimal digits, value at most 255. -/
def countField (f : Text) : Option (BitVec 8) :=
  if 1 ≤ f.length ∧ f.length ≤ 3 then
    match decNumber 0 f with
    | some n => if n ≤ 255 then some (BitVec.ofNat 8 n) else none
    | none => none
  else none

/-- sequence_id: empty, or exactly one decimal digit. -/
def seqField : Text → Option (Bool × BitVec 4)
  | [] => some (false, 0#4)
  | [c] =>
    match decValue c with
    | some d => some (true, BitVec.ofNat 4 d)
    | none => none
  | _ => none

/-- channel: empty, or exactly one byte. -/
def chanField : Text → Option (Bool × Byte)
  | [] => some (false, 0#8)
  | [c] => some (true, c)
  | _ => none

/-- fill_bits: exactly one byte `'0'` to `'5'`. -/
def fillField : Text → Option (BitVec 3)
  | [c] => if 0x30 ≤ c.toNat ∧ c.toNat ≤ 0x35 then some (BitVec.ofNat 3 (c.toNat - 0x30)) else none
  | _ => none

/-- `carrier_fields(F)`, `none` for `invalid` (spec/44_fragment.md R241). -/
def carrierFields (fields : List Text) : Option Carrier :=
  match fields with
  | [f0, f1, f2, f3, _, f5] =>
    match countField f0, countField f1, seqField f2, chanField f3, fillField f5 with
    | some count, some index, some (seqPresent, seq), some (chanPresent, chan), some fill =>
      some ⟨count, index, seqPresent, seq, chanPresent, chan, fill⟩
    | _, _, _, _, _ => none
  | _ => none

/-! ### Capacities -/

/-- The total of the sentence register file that `TCAP` bounds: the bytes of its strings
(spec/00_scope.md R8, spec/10_state.md R37, R44). DESIGN CHOICE: the one byte of `S.START` is not
counted (log entry 25). -/
def Sentence.size (x : Sentence) : Nat :=
  x.talker.length + x.tag.length + (x.fields.map List.length).sum

/-- The form of the block's memory: no buffer holds more than its capacity, nor do the sentence
registers together (spec/00_scope.md R7, R8, spec/10_state.md R25, R26, R40). A buffer is a list
with nothing beyond its length, so equal buffers are equal data (log entry 8). -/
abbrev Memory.wf (s : State) : Prop :=
  s.b.length ≤ s.cfg.bcap ∧ s.t.length ≤ s.cfg.tcap ∧ s.a.length ≤ s.cfg.tcap
    ∧ s.sent.size ≤ s.cfg.tcap

end Sys2Proof.Machine
end

