-- ==== Sys2Proof/Machine/Ais.lean ====
section
/-!
DEFINITION. The AIS type dispatcher (spec/42_ais_dispatch.md): `AIS.DISPATCH` and `AIS.CAST`.
-/

namespace Sys2Proof.Machine

/-- The type ID, the unsigned value of the first six bits (spec/42_ais_dispatch.md R181). -/
def typeId (b : Bits) : BitVec 6 := BitVec.ofNat 6 (bitRead b 0 6)

/-- Whether a length is within a declared size (spec/42_ais_dispatch.md R184). -/
def sizeFits (r : SizeRange) (n : Nat) : Bool := r.min.toNat ≤ n && n ≤ r.max.toNat

/-- `AIS.DISPATCH` after its first six bits are known to exist: `MVALID` already cleared
(spec/42_ais_dispatch.md R182). -/
def dispatchType (tid : BitVec 6) (s : State) : Result :=
  match s.cfg.msgReg tid with
  | none => raise .unknownMessage { s with mtype := tid }
  | some r =>
    if sizeFits r s.b.length = false then
      raise .sizeMismatch { s with mtype := tid, mmin := r.min, mmax := r.max }
    else done { s with mtype := tid, mmin := r.min, mmax := r.max, mvalid := true }

/-- `AIS.DISPATCH` (spec/42_ais_dispatch.md R182 to R185). -/
def execAisDispatch (s : State) : Result :=
  if s.b.length < 6 then raise .bounds { s with mvalid := false }
  else dispatchType (typeId s.b) { s with mvalid := false }

/-- `AIS.CAST id` (spec/42_ais_dispatch.md R187). -/
def execAisCast (id : BitVec 6) (s : State) : Result :=
  done { s with res := if s.mvalid = true ∧ s.mtype = id then 1#64 else 0#64 }

end Sys2Proof.Machine
end

