-- ==== Sys2Proof/Machine/Armor.lean ====
section
/-!
DEFINITION. The armor codec (spec/41_armor.md): `ARM.ENC` and `ARM.DEC`.
-/

namespace Sys2Proof.Machine

/-- The number of padding bits of a sequence of `n` bits (spec/41_armor.md R162, R163). -/
def padBits (n : Nat) : Nat := (6 - n % 6) % 6

/-- Six bits as a group value, first bit most significant (spec/20_memory.md R64). -/
def groupValue (g : Bits) : BitVec 6 := BitVec.ofNat 6 (bitsToNat g)

/-- One character for every six bits (spec/41_armor.md R162); the padded sequence has a multiple
of six. -/
def armorGroups : Bits → Text
  | b0 :: b1 :: b2 :: b3 :: b4 :: b5 :: rest =>
    enc6 (groupValue [b0, b1, b2, b3, b4, b5]) :: armorGroups rest
  | _ => []

/-- The armored text of a bit sequence: padded on the right with zero bits, then grouped
(spec/41_armor.md R162). -/
def armorText (b : Bits) : Text := armorGroups (b ++ List.replicate (padBits b.length) false)

/-- The bits of an armored text, six a character, `none` at a byte outside the alphabet
(spec/41_armor.md R165). -/
def armorBits : Text → Option Bits
  | [] => some []
  | c :: cs =>
    match dec6 c, armorBits cs with
    | some g, some bits => some (fieldBits 6 g ++ bits)
    | _, _ => none

/-- `ARM.ENC` (spec/41_armor.md R162 to R164). -/
def execArmEnc (s : State) : Result :=
  if s.cfg.tcap < (s.b.length + padBits s.b.length) / 6 then raise .capacity s
  else done { s with t := armorText s.b, fill := BitVec.ofNat 3 (padBits s.b.length) }

/-- `ARM.DEC` (spec/41_armor.md R165 to R168). -/
def execArmDec (s : State) : Result :=
  if 5 < s.fill.toNat then raise .valueRange s
  else if s.cfg.bcap < 6 * s.t.length then raise .capacity s
  else
    match armorBits s.t with
    | none => raise .format s
    | some bits =>
      if 6 * s.t.length < s.fill.toNat then raise .format s
      else done (s.writeB (bits.take (6 * s.t.length - s.fill.toNat)))

end Sys2Proof.Machine
end

