-- ==== Sys2Proof/Machine/Bitfield.lean ====
section
/-!
DEFINITION. The bitfield engine (spec/40_bitfield.md): `BF.INIT`, `BF.APPEND`, `BF.PACK`,
`BF.UNPACK`. A word with a width of 0 or above 64 never reaches these meanings: the decoder has
refused it (R130, log entry 20).
-/

namespace Sys2Proof.Machine

/-- `BF.INIT n` (spec/40_bitfield.md R131). -/
def execBfInit (n : BitVec 16) (s : State) : Result :=
  if s.cfg.bcap < n.toNat then raise .capacity s
  else done (s.writeB (List.replicate n.toNat false))

/-- `BF.APPEND.k wid` (spec/40_bitfield.md R133). -/
def execBfAppend (kind : Kind) (wid : BitVec 7) (s : State) : Result :=
  if s.cfg.bcap < s.b.length + wid.toNat then raise .capacity s
  else done (s.writeB (s.b ++ fieldBits wid.toNat (fieldValue kind s.val)))

/-- `BF.PACK.k off, wid` (spec/40_bitfield.md R135 to R140). -/
def execBfPack (kind : Kind) (off : BitVec 16) (wid : BitVec 7) (s : State) : Result :=
  if s.b.length < off.toNat + wid.toNat then raise .bounds s
  else done (s.writeB (bitWrite s.b off.toNat wid.toNat (fieldValue kind s.val)))

/-- `BF.UNPACK.k off, wid` (spec/40_bitfield.md R142 to R146). -/
def execBfUnpack (kind : Kind) (off : BitVec 16) (wid : BitVec 7) (s : State) : Result :=
  if s.b.length < off.toNat + wid.toNat then raise .bounds s
  else
    done { s with res := extendValue kind wid.toNat (bitRead s.b off.toNat wid.toNat) }

end Sys2Proof.Machine
end

