-- ==== Sys2Proof/Machine/Fragment.lean ====
section
/-!
DEFINITION. Fragment reassembly and the carrier formatter (spec/44_fragment.md): `FRAG.BEGIN`,
`FRAG.ADD`, `FRAG.END`, `FRAG.FORM`.
-/

namespace Sys2Proof.Machine

/-- `FRAG.BEGIN` (spec/44_fragment.md R245). -/
def execFragBegin (s : State) : Result :=
  done { s with a := [], afill := 0#3, aany := false, aerrc := 0#4 }

/-- A failing `FRAG.ADD`: `AERRC` set, the same code raised (spec/44_fragment.md R246). -/
def failFragment (e : Err) (s : State) : Result := raise e { s with aerrc := e.code }

/-- `FRAG.ADD` (spec/44_fragment.md R246). -/
def execFragAdd (s : State) : Result :=
  if s.aerrc ≠ 0#4 then raiseCode s.aerrc s
  else if s.cvalid = false then failFragment .notCarrier s
  else if s.cfg.tcap < s.a.length + (carrierPayload s.sent.fields).length then
    failFragment .capacity s
  else
    done { s with
      a := s.a ++ carrierPayload s.sent.fields, afill := s.carr.fill, aany := true }

/-- `FRAG.END` (spec/44_fragment.md R247). -/
def execFragEnd (s : State) : Result :=
  if s.aerrc ≠ 0#4 then raiseCode s.aerrc s
  else if s.aany = false then raise .illegal s
  else done { s with t := s.a, fill := s.afill }

/-- The six fields of a carrier sentence from the carrier registers, a payload and its fill bits
(spec/44_fragment.md R249). -/
def formFields (c : Carrier) (payload : Text) (fill : BitVec 3) : List Text :=
  [dec c.count.toNat, dec c.index.toNat,
   if c.seqPresent = true then dec c.seq.toNat else [],
   if c.chanPresent = true then [c.chan] else [],
   payload, dec fill.toNat]

/-- The sentence registers a `FRAG.FORM` writes: the talker and the tag as they stand
(spec/44_fragment.md R249). -/
def formedSentence (s : State) : Sentence :=
  { s.sent with start := Ascii.bang, fields := formFields s.carr s.t s.fill }

/-- `FRAG.FORM` (spec/44_fragment.md R249). DEDUCED: the last check, that the strings of the
sentence registers total at most `TCAP`, is not among the three R249 writes; it is
spec/00_scope.md R8, with spec/92_eei_decisions.md D5 "an operation whose result would not fit
raises `E_CAPACITY` and writes nothing" (log entry 10). -/
def execFragForm (s : State) : Result :=
  if s.cfg.isCarrier s.sent.tag = false then raise .notCarrier s
  else if 5 < s.fill.toNat then raise .valueRange s
  else if s.carr.seqPresent = true ∧ 9 < s.carr.seq.toNat then raise .valueRange s
  else if s.cfg.tcap < (formedSentence s).size then raise .capacity s
  else done (s.touchSentence (formedSentence s))

end Sys2Proof.Machine
end

