-- ==== Sys2Proof/Machine/Nmea.lean ====
section
/-!
DEFINITION. The sentence envelope (spec/43_nmea.md): `NMEA.PARSE` and `NMEA.RENDER`. A parse and
a render are functions of the configuration and the text or the registers; the meanings write what
they answer.
-/

namespace Sys2Proof.Machine

/-- Why a line is no sentence: an error code, and for a checksum error the two values
(spec/43_nmea.md R204, R207). -/
inductive ParseFailure where
  | plain (e : Err)
  | checksum (rx computed : Byte)
deriving DecidableEq, Repr

/-- What a parse delivers: the sentence registers, and the carrier registers for a carrier tag
(spec/43_nmea.md R204 step 11). -/
structure Parsed where
  sent : Sentence
  carr : Option Carrier
deriving DecidableEq, Repr

/-- A start token (spec/43_nmea.md R201, R205). -/
def isStartToken (c : Byte) : Bool := c = Ascii.dollar || c = Ascii.bang

/-- Steps 2 to 4: the index of the delimiter and the received checksum. The first `'*'` at index 1
or later, exactly two bytes after it, both digits (spec/43_nmea.md R206). -/
def checksumWindow (t : Text) : Option (Nat × Byte) :=
  match find t Ascii.star 1 t.length with
  | none => none
  | some p =>
    if t.length - p - 1 ≠ 2 then none
    else
      match hexValue (t.getD (p + 1) 0#8), hexValue (t.getD (p + 2) 0#8) with
      | some hi, some lo => some (p, hi ++ lo)
      | _, _ => none

/-- Step 7: the talker and the tag of an address (spec/43_nmea.md R208, R209). -/
def splitAddress (addr : Text) : Option (Text × Text) :=
  if addr.head? = some Ascii.upperP then some ([], addr)
  else if addr.length = 5 then some (addr.take 2, addr.drop 2)
  else none

/-- Step 6: the index that ends the address, the first comma of the span or the delimiter `p`
(spec/43_nmea.md R208). -/
def addressEnd (t : Text) (p : Nat) : Nat := (find t Ascii.comma 1 p).getD p

/-- Step 8: no field without a comma, else one for each comma (spec/43_nmea.md R210). -/
def spanFields (t : Text) (q p : Nat) : List Text :=
  if q = p then [] else split Ascii.comma (slice t (q + 1) p)

/-- Steps 9 and 10 of a parse, 4 and 5 of a render: the tag known, the field count right, the
carrier grammar of a carrier tag met (spec/43_nmea.md R211, R212, R216). -/
def checkTag (cfg : Config) (tag : Text) (fields : List Text) : Except Err (Option Carrier) :=
  match cfg.tagReg tag with
  | none => .error .unknownSentence
  | some n =>
    if fields.length ≠ n then .error .format
    else if cfg.isCarrier tag then
      match carrierFields fields with
      | some c => .ok (some c)
      | none => .error .format
    else .ok none

/-- Steps 6 to 10, after the checksum has been found right (spec/43_nmea.md R208 to R212). -/
def parseSpan (cfg : Config) (t : Text) (start : Byte) (p : Nat) : Except ParseFailure Parsed :=
  match splitAddress (slice t 1 (addressEnd t p)) with
  | none => .error (.plain .format)
  | some (talker, tag) =>
    match checkTag cfg tag (spanFields t (addressEnd t p) p) with
    | .error e => .error (.plain e)
    | .ok carr => .ok ⟨⟨start, talker, tag, spanFields t (addressEnd t p) p⟩, carr⟩

/-- `NMEA.PARSE` as a function of the line (spec/43_nmea.md R204). -/
def parseLine (cfg : Config) (t : Text) : Except ParseFailure Parsed :=
  match t.head? with
  | none => .error (.plain .format)
  | some start =>
    if isStartToken start = false then .error (.plain .format)
    else
      match checksumWindow t with
      | none => .error (.plain .format)
      | some (p, rx) =>
        if rx ≠ xor8 (slice t 1 p) then .error (.checksum rx (xor8 (slice t 1 p)))
        else parseSpan cfg t start p

/-- `NMEA.PARSE` (spec/43_nmea.md R204 to R213). -/
def execNmeaParse (s : State) : Result :=
  match parseLine s.cfg s.t with
  | .error (.plain e) => raise e { s with cvalid := false }
  | .error (.checksum rx computed) => raise .checksum ({ s with cvalid := false }.setChecksums rx computed)
  | .ok ⟨sent, none⟩ => done { s with sent := sent, cvalid := false }
  | .ok ⟨sent, some c⟩ => done { s with sent := sent, carr := c, cvalid := true }

/-- Step 2 of a render: the address a parse could have given (spec/43_nmea.md R216). -/
def addressRenders (talker tag : Text) : Bool :=
  if talker.length = 0 then tag.head? = some Ascii.upperP
  else if talker.length = 2 then tag.length = 3 && talker.head? ≠ some Ascii.upperP
  else false

/-- Neither `','` nor `'*'` occurs in the string (spec/43_nmea.md R216 step 3). -/
def plainText (x : Text) : Bool := x.all (fun c => c ≠ Ascii.comma && c ≠ Ascii.star)

/-- The fields of a line, a comma before each (spec/43_nmea.md R216 step 6, R218). -/
def fieldsText : List Text → Text
  | [] => []
  | f :: fs => Ascii.comma :: (f ++ fieldsText fs)

/-- The body of a line, what the checksum covers (spec/43_nmea.md R216 step 6). -/
def lineBody (x : Sentence) : Text := x.talker ++ x.tag ++ fieldsText x.fields

/-- The line of a body (spec/43_nmea.md R216 step 7). -/
def lineText (start : Byte) (body : Text) : Text :=
  start :: (body ++ Ascii.star :: hex2 (xor8 body))

/-- `NMEA.RENDER` as a function of the sentence registers (spec/43_nmea.md R216). -/
def renderLine (cfg : Config) (x : Sentence) : Except Err Text :=
  if isStartToken x.start = false then .error .valueRange
  else if addressRenders x.talker x.tag = false then .error .valueRange
  else if (plainText x.talker && plainText x.tag && x.fields.all plainText) = false then
    .error .valueRange
  else
    match checkTag cfg x.tag x.fields with
    | .error e => .error e
    | .ok _ =>
      if cfg.tcap < 1 + (lineBody x).length + 3 then .error .capacity
      else .ok (lineText x.start (lineBody x))

/-- `NMEA.RENDER` (spec/43_nmea.md R216 to R218). -/
def execNmeaRender (s : State) : Result :=
  match renderLine s.cfg s.sent with
  | .error e => raise e s
  | .ok line => done { s with t := line }

end Sys2Proof.Machine
end

