-- ==== Sys2Proof/Machine/Dispatch.lean ====
section
/-!
DEFINITION. The meaning of a command, one arm for each constructor of Instr.
-/

namespace Sys2Proof.Machine

def exec (i : Instr) (s : State) : Host.Outcome State Fault Refusal :=
  match i with
  | .bfInit n => Sys2Proof.Machine.execBfInit n s
  | .bfAppend kind wid => Sys2Proof.Machine.execBfAppend kind wid s
  | .bfPack kind off wid => Sys2Proof.Machine.execBfPack kind off wid s
  | .bfUnpack kind off wid => Sys2Proof.Machine.execBfUnpack kind off wid s
  | .armEnc => Sys2Proof.Machine.execArmEnc s
  | .armDec => Sys2Proof.Machine.execArmDec s
  | .aisDispatch => Sys2Proof.Machine.execAisDispatch s
  | .aisCast id => Sys2Proof.Machine.execAisCast id s
  | .nmeaParse => Sys2Proof.Machine.execNmeaParse s
  | .nmeaRender => Sys2Proof.Machine.execNmeaRender s
  | .fragBegin => Sys2Proof.Machine.execFragBegin s
  | .fragAdd => Sys2Proof.Machine.execFragAdd s
  | .fragEnd => Sys2Proof.Machine.execFragEnd s
  | .fragForm => Sys2Proof.Machine.execFragForm s

end Sys2Proof.Machine
end

