-- ==== Sys2Proof/Machine/HostPort.lean ====
section
/-!
DEFINITION. The host interface (spec/10_state.md R44): what each host move does to the block. A
write touches one element; a read returns a value and changes nothing; a command word is decoded
and executed, an illegal one raises `E_ILLEGAL` (spec/30_encoding.md R95, R96); reset gives every
element its reset value.
-/

namespace Sys2Proof.Machine

/-- A host write to a string of the sentence registers: the strings of the whole file stay within
`TCAP`, and `CVALID` is cleared (spec/10_state.md R37, R44; log entry 11). -/
def writeSentence (x : Sentence) (s : State) : Result :=
  if x.size ≤ s.cfg.tcap then .next (s.touchSentence x) else .refused .hostWriteTooLong

/-- A host write (spec/10_state.md R44). -/
def hostWrite (w : HostWrite) (s : State) : Result :=
  match w with
  | .val v => .next { s with val := v }
  | .fill v => .next { s with fill := v }
  | .t v => if v.length ≤ s.cfg.tcap then .next { s with t := v } else .refused .hostWriteTooLong
  | .b v => if v.length ≤ s.cfg.bcap then .next (s.writeB v) else .refused .hostWriteTooLong
  | .start v => .next (s.touchSentence { s.sent with start := v })
  | .talker v => writeSentence { s.sent with talker := v } s
  | .tag v => writeSentence { s.sent with tag := v } s
  | .fields v => writeSentence { s.sent with fields := v } s
  | .count v => .next (s.touchCarrier { s.carr with count := v })
  | .index v => .next (s.touchCarrier { s.carr with index := v })
  | .seqPresent v => .next (s.touchCarrier { s.carr with seqPresent := v })
  | .seq v => .next (s.touchCarrier { s.carr with seq := v })
  | .chanPresent v => .next (s.touchCarrier { s.carr with chanPresent := v })
  | .chan v => .next (s.touchCarrier { s.carr with chan := v })
  | .carrierFill v => .next (s.touchCarrier { s.carr with fill := v })

/-- What a host read returns; `none` for a bit beyond the end of `B`
(spec/10_state.md R23 to R44; the two registries: spec/20_memory.md R62, R72 and log entry 24). -/
def hostRead (e : Element) (s : State) : Option Reading :=
  match e with
  | .val => some (.number s.val.toNat)
  | .res => some (.number s.res.toNat)
  | .b => some (.bits s.b)
  | .bit i => s.b[i]?.map (fun x => .number x.toNat)
  | .blen => some (.number s.b.length)
  | .t => some (.text s.t)
  | .tlen => some (.number s.t.length)
  | .fill => some (.number s.fill.toNat)
  | .status => some (.number s.status.toNat)
  | .csinfo => some (.number s.csinfo.toNat)
  | .mtype => some (.number s.mtype.toNat)
  | .mmin => some (.number s.mmin.toNat)
  | .mmax => some (.number s.mmax.toNat)
  | .mvalid => some (.number s.mvalid.toNat)
  | .start => some (.number s.sent.start.toNat)
  | .talker => some (.text s.sent.talker)
  | .tag => some (.text s.sent.tag)
  | .fields => some (.texts s.sent.fields)
  | .nf => some (.number s.sent.fields.length)
  | .count => some (.number s.carr.count.toNat)
  | .index => some (.number s.carr.index.toNat)
  | .seqPresent => some (.number s.carr.seqPresent.toNat)
  | .seq => some (.number s.carr.seq.toNat)
  | .chanPresent => some (.number s.carr.chanPresent.toNat)
  | .chan => some (.number s.carr.chan.toNat)
  | .carrierFill => some (.number s.carr.fill.toNat)
  | .cvalid => some (.number s.cvalid.toNat)
  | .a => some (.text s.a)
  | .alen => some (.number s.a.length)
  | .afill => some (.number s.afill.toNat)
  | .aany => some (.number s.aany.toNat)
  | .aerrc => some (.number s.aerrc.toNat)
  | .msgReg tid => some (.declared (s.cfg.msgReg tid))
  | .tagReg tag => some (.fieldCount (s.cfg.tagReg tag))

/-- A command word presented at the command port: decoded, then executed
(spec/30_encoding.md R95, R96). -/
def issueCommand (cw : Word) (s : State) : Result :=
  match decode cw with
  | .ok i => exec i s
  | .error _ => raise .illegal s

/-- Reset: every element takes its reset value; the configuration and the host's own list are not
the block's to reset (spec/70_reset_and_hazards.md R300, spec/10_state.md R46). -/
def assertReset (s : State) : State := { State.resetWith s.cfg with pending := s.pending }

/-- One item of the host's list, already taken off it (spec/10_state.md R44). -/
def takeItem (item : HostItem) (s : State) : Result :=
  match item with
  | .write w => hostWrite w s
  | .read e =>
    match hostRead e s with
    | some _ => .next s
    | none => .refused .hostReadPastEnd
  | .command cw => issueCommand cw s
  | .reset => .next (assertReset s)

/-- Whether the item may be presented now: reset always, anything else only while `BUSY = 0`
(spec/10_state.md R44, spec/70_reset_and_hazards.md R300, R310). -/
def mayPresent (item : HostItem) (s : State) : Bool := item = .reset || !s.busy

end Sys2Proof.Machine
end

