-- ==== Sys2Proof/Machine/Step.lean ====
section
/-!
DEFINITION. One step: the host presents the next item of its list and the block completes it
(spec/10_state.md R20, spec/70_reset_and_hazards.md R321). With nothing left to present the block
is idle and nothing changes (R301).
-/

namespace Sys2Proof.Machine

/-- One step of the block and its host (log entry 5). -/
def step (s : State) : Host.Outcome State Fault Refusal :=
  match s.pending with
  | [] => .next s
  | item :: rest =>
    if mayPresent item s then takeItem item { s with pending := rest }
    else .refused .hostActsWhileBusy

/-- The state with one more command word at the head of the host's list, and `BUSY` clear so that
it may be presented: the very next step decodes and runs it. The word is numbered as
spec/opcode_table.json numbers it (log entries 5, 18). -/
def State.withFetchWord (s : State) (nbits w : Nat) : State :=
  { s.setIdle with pending := .command (BitVec.ofNat 32 (w % 2 ^ nbits)) :: s.pending }

end Sys2Proof.Machine
end

