-- ==== Sys2Proof/Machine/Assembler.lean ====
section
/-!
DEFINITION. What the spec puts above the command port, on the host's side: the assembler's text of
a command (spec/30_encoding.md R103), the seven pseudo-instructions with their expansions and the
rule that they stop at the first error (R104), and the commands a row of a `LAYOUT` table turns
into (spec/40_bitfield.md R150). Nothing in `step` depends on this file (log entry 16).
-/

namespace Sys2Proof.Machine

/-- The kind suffix (spec/30_encoding.md R103). -/
def kindSuffix : Kind → String
  | .unsigned => ".U"
  | .signed => ".S"
  | .enumerated => ".E"
  | .boolean => ".B"

/-- The assembler's text of a command (spec/30_encoding.md R103). -/
def asmText : Instr → String
  | .bfInit n => "BF.INIT " ++ toString n.toNat
  | .bfAppend kind wid => "BF.APPEND" ++ kindSuffix kind ++ " " ++ toString wid.toNat
  | .bfPack kind off wid =>
    "BF.PACK" ++ kindSuffix kind ++ " " ++ toString off.toNat ++ ", " ++ toString wid.toNat
  | .bfUnpack kind off wid =>
    "BF.UNPACK" ++ kindSuffix kind ++ " " ++ toString off.toNat ++ ", " ++ toString wid.toNat
  | .armEnc => "ARM.ENC"
  | .armDec => "ARM.DEC"
  | .aisDispatch => "AIS.DISPATCH"
  | .aisCast id => "AIS.CAST " ++ toString id.toNat
  | .nmeaParse => "NMEA.PARSE"
  | .nmeaRender => "NMEA.RENDER"
  | .fragBegin => "FRAG.BEGIN"
  | .fragAdd => "FRAG.ADD"
  | .fragEnd => "FRAG.END"
  | .fragForm => "FRAG.FORM"

/-! ### Reading a line of assembler text (spec/30_encoding.md R103) -/

/-- The value of a hexadecimal digit, either case (DESIGN CHOICE, log entry 26). -/
def digitOf (c : Char) : Option Nat :=
  if 0x30 ≤ c.toNat ∧ c.toNat ≤ 0x39 then some (c.toNat - 0x30)
  else if 0x41 ≤ c.toNat ∧ c.toNat ≤ 0x46 then some (c.toNat - 0x41 + 10)
  else if 0x61 ≤ c.toNat ∧ c.toNat ≤ 0x66 then some (c.toNat - 0x61 + 10)
  else none

/-- The number digits of a base write after the ones already read. -/
def digitsFrom (base : Nat) : Nat → List Char → Option Nat
  | acc, [] => some acc
  | acc, c :: cs =>
    match digitOf c with
    | some d => if d < base then digitsFrom base (base * acc + d) cs else none
    | none => none

/-- An operand: a decimal natural, or a hexadecimal one after `0x` (R103). -/
def operandOf : List Char → Option Nat
  | [] => none
  | '0' :: 'x' :: c :: cs => digitsFrom 16 0 (c :: cs)
  | c :: cs => digitsFrom 10 0 (c :: cs)

/-- A text without the spaces before and after it. -/
def trimSpaces (text : List Char) : List Char :=
  ((text.dropWhile (· = ' ')).reverse.dropWhile (· = ' ')).reverse

/-- The operands between commas; none in an empty text. DESIGN CHOICE (log entry 26): R103 is
silent on blanks; spaces before and after an operand are skipped, and a space inside one makes it
no operand. -/
def operandsOf (text : List Char) : Option (List Nat) :=
  match trimSpaces text with
  | [] => some []
  | rest => (rest.splitOn ',').mapM (fun piece => operandOf (trimSpaces piece))

/-- A number as a field of the command word, when it fits. -/
def fieldOf (width n : Nat) : Option (BitVec width) :=
  if n < 2 ^ width then some (BitVec.ofNat width n) else none

/-- A mnemonic with a kind suffix, no suffix meaning `.U` (R103). -/
def kindOfSuffix (base : String) (mnemonic : String) : Option Kind :=
  if mnemonic = base ∨ mnemonic = base ++ ".U" then some .unsigned
  else if mnemonic = base ++ ".S" then some .signed
  else if mnemonic = base ++ ".E" then some .enumerated
  else if mnemonic = base ++ ".B" then some .boolean
  else none

/-- The command a mnemonic and its operands name (spec/30_encoding.md R94, R103). -/
def commandOf (mnemonic : String) (operands : List Nat) : Option Instr :=
  match operands with
  | [] =>
    if mnemonic = "ARM.ENC" then some .armEnc
    else if mnemonic = "ARM.DEC" then some .armDec
    else if mnemonic = "AIS.DISPATCH" then some .aisDispatch
    else if mnemonic = "NMEA.PARSE" then some .nmeaParse
    else if mnemonic = "NMEA.RENDER" then some .nmeaRender
    else if mnemonic = "FRAG.BEGIN" then some .fragBegin
    else if mnemonic = "FRAG.ADD" then some .fragAdd
    else if mnemonic = "FRAG.END" then some .fragEnd
    else if mnemonic = "FRAG.FORM" then some .fragForm
    else none
  | [n] =>
    if mnemonic = "BF.INIT" then (fieldOf 16 n).map .bfInit
    else if mnemonic = "AIS.CAST" then (fieldOf 6 n).map .aisCast
    else
      match kindOfSuffix "BF.APPEND" mnemonic, fieldOf 7 n with
      | some kind, some wid => some (.bfAppend kind wid)
      | _, _ => none
  | [off, wid] =>
    match fieldOf 16 off, fieldOf 7 wid with
    | some off, some wid =>
      match kindOfSuffix "BF.PACK" mnemonic with
      | some kind => some (.bfPack kind off wid)
      | none => (kindOfSuffix "BF.UNPACK" mnemonic).map (fun kind => .bfUnpack kind off wid)
    | _, _ => none
  | _ => none

/-- A line of assembler text: a comment from `;` on, then the mnemonic up to the first space, then
the operands (spec/30_encoding.md R103). `none` where the line is no well-formed command. DESIGN
CHOICE (log entry 26): spaces before the mnemonic are skipped, and one at least ends it. -/
def assembleLine (line : List Char) : Option Instr :=
  let text := (line.takeWhile (· ≠ ';')).dropWhile (· = ' ')
  match operandsOf (text.dropWhile (· ≠ ' ')) with
  | some operands =>
    (commandOf (String.ofList (text.takeWhile (· ≠ ' '))) operands).filter Instr.wellFormed
  | none => none

/-- The seven pseudo-instructions (spec/30_encoding.md R104). -/
inductive Pseudo where
  | packV (kind : Kind) (off : BitVec 16) (wid : BitVec 7) (value : BitVec 64)
  | appendV (kind : Kind) (wid : BitVec 7) (value : BitVec 64)
  | parseSentence (line : Text)
  | renderSentence
  | decodeMessage (text : Text) (fill : BitVec 3)
  | encodeText
  | reassemble (lines : List Text)
deriving DecidableEq, Repr

/-- A command as the host presents it. -/
def present (i : Instr) : HostItem := .command (encode i)

/-- The items that hand one line to the reassembly: load, parse, add
(spec/30_encoding.md R104 `REASSEMBLE`). -/
def reassembleLine (line : Text) : List HostItem :=
  [.write (.t line), present .nmeaParse, present .fragAdd]

/-- The expansion of a pseudo-instruction (spec/30_encoding.md R104). -/
def Pseudo.expand : Pseudo → List HostItem
  | .packV kind off wid value => [.write (.val value), present (.bfPack kind off wid)]
  | .appendV kind wid value => [.write (.val value), present (.bfAppend kind wid)]
  | .parseSentence line => [.write (.t line), present .nmeaParse]
  | .renderSentence => [present .nmeaRender, .read .t]
  | .decodeMessage text fill =>
    [.write (.t text), .write (.fill fill), present .armDec, present .aisDispatch]
  | .encodeText => [present .armEnc, .read .t, .read .fill]
  | .reassemble lines =>
    present .fragBegin :: (lines.flatMap reassembleLine ++ [present .fragEnd])

/-- Whether an item is a command, the only kind of item that can end with an error. -/
def isCommand : HostItem → Bool
  | .command _ => true
  | .write _ => false
  | .read _ => false
  | .reset => false

/-- The items in order, up to and including the first command that ends with `ERR != OK`; the ones
after it are not issued (spec/30_encoding.md R104). -/
def runUntilError : List HostItem → State → Result
  | [], s => .next s
  | item :: rest, s =>
    match takeItem item s with
    | .next t => if isCommand item && t.err ≠ 0#4 then .next t else runUntilError rest t
    | .fault r => .fault r
    | .refused r => .refused r

/-- A pseudo-instruction run by the host (spec/30_encoding.md R104). -/
def Pseudo.run (p : Pseudo) (s : State) : Result := runUntilError p.expand s

/-! ### The commands of a layout row (spec/40_bitfield.md R150) -/

/-- Piece `i` of a row too wide for one command: the next bits of the row, at most `VALW` of them,
as an unsigned field (log entry 23). -/
def widePiece (d : FieldDescriptor) (i : Nat) : FieldDescriptor :=
  { d with
    offset := d.offset + valw * i
    width := min valw (d.width - valw * i)
    kind := .unsigned }

/-- The pieces one command each can move. A row of 1 to 64 bits is its own one piece, with its own
kind (spec/40_bitfield.md R150). DESIGN CHOICE (log entry 23): a wider row, which R10 allows and no
command can name, is cut from its first bit on into unsigned fields of 64 bits and the rest, as
spec/91_not_in_source.md N13 has a host move a wide field "in pieces"; a row of no bits has no
piece. -/
def fieldPieces (d : FieldDescriptor) : List FieldDescriptor :=
  if d.width = 0 then []
  else if d.width ≤ valw then [d]
  else (List.range ((d.width + (valw - 1)) / valw)).map (widePiece d)

/-- The command of one piece, its offset and width put into the fields of the command word; `none`
where one does not fit its field, so that nothing wraps. -/
def pieceCommand (command : Kind → BitVec 16 → BitVec 7 → Instr) (p : FieldDescriptor) :
    Option Instr :=
  match fieldOf 16 p.offset, fieldOf 7 p.width with
  | some off, some wid => some (command p.kind off wid)
  | _, _ => none

/-- The commands of a layout row, in the order of its pieces; `none` where a piece has an offset
beyond 65535, which no row of a configuration the sources allow has. -/
def fieldCommands (command : Kind → BitVec 16 → BitVec 7 → Instr) (d : FieldDescriptor) :
    Option (List Instr) :=
  (fieldPieces d).mapM (pieceCommand command)

/-- The `BF.UNPACK` commands that read a field of a layout, one for a row of 1 to 64 bits
(spec/40_bitfield.md R150; a wider row: DESIGN CHOICE, log entry 23). -/
def fieldUnpack (d : FieldDescriptor) : Option (List Instr) := fieldCommands .bfUnpack d

/-- The `BF.PACK` commands that write a field of a layout, one for a row of 1 to 64 bits
(spec/40_bitfield.md R150; a wider row: DESIGN CHOICE, log entry 23). -/
def fieldPack (d : FieldDescriptor) : Option (List Instr) := fieldCommands .bfPack d

end Sys2Proof.Machine
end

