-- ==== Sys2Proof/Safety.lean ====
section
/-!
DEFINITION. What a legal state of the block is, in the terms claims use: the meaning the spec gives
each flag and the range it gives each register, as predicates on State that every step is claimed
to keep. The block has no unsafe state in the sense of a trap or a stop
(spec/60_exceptions.md R263); these say which values its elements never show together.
-/

namespace Sys2Proof.Machine

/-- `STATUS` between commands: `BUSY` and the reserved bits 0, `ERR` one of the eleven codes
(spec/10_state.md R28). -/
abbrev StatusLegal (s : State) : Prop := s.status.toNat ≤ 10

/-- What `MVALID = 1` says: `B` holds one message of the registered type `MTYPE`, its length within
`MMIN` and `MMAX` (spec/10_state.md R31, R32). -/
abbrev MessageValid (s : State) : Prop :=
  s.mvalid = true →
    6 ≤ s.b.length ∧ s.mtype = typeId s.b ∧ s.cfg.msgReg s.mtype = some ⟨s.mmin, s.mmax⟩
      ∧ s.mmin.toNat ≤ s.b.length ∧ s.b.length ≤ s.mmax.toNat

/-- What `CVALID = 1` says: `S` holds a carrier sentence and `C` its decoded fields
(spec/10_state.md R38, R39). -/
abbrev CarrierValid (s : State) : Prop :=
  s.cvalid = true →
    s.cfg.isCarrier s.sent.tag = true ∧ carrierFields s.sent.fields = some s.carr

/-- The accumulator: empty until a fragment is added, its fill bits 0 to 5, its error code 0 or
one of the two a `FRAG.ADD` can leave (spec/10_state.md R40 to R43). -/
abbrev AccumulatorLegal (s : State) : Prop :=
  (s.aany = false → s.a = [] ∧ s.afill = 0#3) ∧ s.afill.toNat ≤ 5
    ∧ (s.aerrc = 0#4 ∨ s.aerrc = Err.notCarrier.code ∨ s.aerrc = Err.capacity.code)

/-- The invariant of the machine under a configuration the sources allow. -/
abbrev Inv (s : State) : Prop :=
  s.cfg.wf ∧ Memory.wf s ∧ StatusLegal s ∧ MessageValid s ∧ CarrierValid s ∧ AccumulatorLegal s

end Sys2Proof.Machine
end

