-- ==== Sys2Proof/Certificates/Slice0/Obligations.lean ====
section
/-!
DEFINITION. The statements about the model, each from the rules of spec/. A statement about what a
command does is an equation with the whole next state, so it says the result, that the command
completes, and what it leaves unchanged. The small definitions of Sys2Proof.Claims are written from
the spec's words, apart from the model's own functions.
-/

namespace Sys2Proof.Claims

open Sys2Proof.Machine

/-- The sum of `BitRead(off, w)` (spec/00_scope.md R15); a bit beyond the end counts as 0. -/
def fieldSum (b : Bits) (off w : Nat) : Nat :=
  ∑ i ∈ Finset.range w, (b.getD (off + i) false).toNat * 2 ^ (w - 1 - i)

/-- Bit `j` of the value `fv(kind, wid, VAL)` (spec/40_bitfield.md R132). -/
def storedBit (kind : Kind) (val : BitVec 64) (j : Nat) : Bool :=
  if kind = .boolean then decide (j = 0 ∧ val ≠ 0#64) else val.getLsbD j

/-- The 2-bit code of a kind in a command word (spec/00_scope.md R16). -/
def kindBits : Kind → Word
  | .unsigned => 0#32
  | .signed => 1#32
  | .enumerated => 2#32
  | .boolean => 3#32

/-- The five fields of a command word as numbers (spec/30_encoding.md R91). -/
def opOf (cw : Word) : Nat := cw.toNat / 2 ^ 27
def kindOf (cw : Word) : Nat := cw.toNat / 2 ^ 25 % 4
def widOf (cw : Word) : Nat := cw.toNat / 2 ^ 18 % 128
def rsvOf (cw : Word) : Nat := cw.toNat / 2 ^ 16 % 4
def immOf (cw : Word) : Nat := cw.toNat % 2 ^ 16

/-- The illegal command words (spec/30_encoding.md R96). -/
def Illegal (cw : Word) : Prop :=
  opOf cw ∈ [0x00, 0x05, 0x06, 0x07, 0x0A, 0x0B, 0x0E, 0x0F, 0x12, 0x13] ∨ 0x18 ≤ opOf cw
    ∨ rsvOf cw ≠ 0
    ∨ opOf cw ∈ [0x08, 0x09, 0x0C, 0x10, 0x11, 0x14, 0x15, 0x16, 0x17]
        ∧ (kindOf cw ≠ 0 ∨ widOf cw ≠ 0 ∨ immOf cw ≠ 0)
    ∨ opOf cw ∈ [0x01, 0x0D] ∧ (kindOf cw ≠ 0 ∨ widOf cw ≠ 0)
    ∨ opOf cw = 0x02 ∧ immOf cw ≠ 0
    ∨ opOf cw ∈ [0x02, 0x03, 0x04] ∧ (widOf cw = 0 ∨ 64 < widOf cw)
    ∨ opOf cw = 0x0D ∧ 63 < immOf cw

/-- The exclusive OR of all bytes (spec/43_nmea.md R202). -/
def xorAll (x : Text) : Byte := x.foldl (· ^^^ ·) 0#8

/-- The sixteen upper-case digits (spec/43_nmea.md R203). -/
def hexAlphabet : Text :=
  [0x30#8, 0x31#8, 0x32#8, 0x33#8, 0x34#8, 0x35#8, 0x36#8, 0x37#8, 0x38#8, 0x39#8,
   0x41#8, 0x42#8, 0x43#8, 0x44#8, 0x45#8, 0x46#8]

/-- Two upper-case digits, high nibble first (spec/43_nmea.md R203). -/
def hexUpper (v : Byte) : Text :=
  [hexAlphabet.getD (v.toNat / 16) 0#8, hexAlphabet.getD (v.toNat % 16) 0#8]

/-- `'$'` or `'!'` (spec/43_nmea.md R201). -/
abbrev StartToken (c : Byte) : Prop := c = 0x24#8 ∨ c = 0x21#8

/-- Proprietary (no talker, the tag begins with `'P'`) or two characters and three, the first not
`'P'` (spec/43_nmea.md R208, R209, R216). -/
abbrev AddressShape (talker tag : Text) : Prop :=
  (talker = [] ∧ tag.head? = some 0x50#8)
    ∨ (talker.length = 2 ∧ tag.length = 3 ∧ talker.head? ≠ some 0x50#8)

/-- Neither `','` nor `'*'` in the string. -/
abbrev NoDelimiter (x : Text) : Prop := 0x2C#8 ∉ x ∧ 0x2A#8 ∉ x

/-- No delimiter in any component of a sentence (spec/43_nmea.md R216 step 3). -/
abbrev PlainSentence (x : Sentence) : Prop :=
  NoDelimiter x.talker ∧ NoDelimiter x.tag ∧ ∀ f ∈ x.fields, NoDelimiter f

/-- Address, then a comma and the bytes of each field (spec/30_encoding.md R100). -/
def spanOf (x : Sentence) : Text := x.talker ++ x.tag ++ x.fields.flatMap (fun f => 0x2C#8 :: f)

/-- Start token, span, `'*'`, checksum digits (spec/30_encoding.md R100). -/
def lineOf (x : Sentence) : Text :=
  x.start :: (spanOf x ++ 0x2A#8 :: hexUpper (xorAll (spanOf x)))

/-- Decimal without leading zeros, by the library's own digits (spec/00_scope.md R15 `dec`). -/
def decimal (n : Nat) : Text := (Nat.toDigits 10 n).map (fun ch => BitVec.ofNat 8 ch.toNat)

/-- A decimal digit's byte (spec/44_fragment.md R241). -/
abbrev Digit (c : Byte) : Prop := 0x30 ≤ c.toNat ∧ c.toNat ≤ 0x39

/-- The value of a string of decimal digits, most significant digit first. -/
def digitsValue (f : Text) : Nat := f.foldl (fun n c => 10 * n + (c.toNat - 0x30)) 0

/-- fragment_count, fragment_index: 1 to 3 decimal digits, value at most 255
(spec/44_fragment.md R241). -/
def CountText (f : Text) (n : BitVec 8) : Prop :=
  1 ≤ f.length ∧ f.length ≤ 3 ∧ (∀ c ∈ f, Digit c) ∧ digitsValue f ≤ 255
    ∧ n.toNat = digitsValue f

/-- sequence_id: empty, or exactly one decimal digit (spec/44_fragment.md R241). -/
def SeqText (f : Text) (present : Bool) (n : BitVec 4) : Prop :=
  (f = [] ∧ present = false ∧ n = 0#4)
    ∨ ∃ d, f = [d] ∧ Digit d ∧ present = true ∧ n.toNat = d.toNat - 0x30

/-- channel: empty, or exactly one byte (spec/44_fragment.md R241). -/
def ChanText (f : Text) (present : Bool) (chan : Byte) : Prop :=
  (f = [] ∧ present = false ∧ chan = 0#8) ∨ (f = [chan] ∧ present = true)

/-- fill_bits: exactly one byte `'0'` to `'5'` (spec/44_fragment.md R241). -/
def FillText (f : Text) (n : BitVec 3) : Prop :=
  ∃ d, f = [d] ∧ 0x30 ≤ d.toNat ∧ d.toNat ≤ 0x35 ∧ n.toNat = d.toNat - 0x30

/-- The grammar of the six carrier fields and the values it gives; the payload `F[4]` is not
examined (spec/44_fragment.md R241). -/
def CarrierGrammar (fields : List Text) (c : Carrier) : Prop :=
  ∃ f0 f1 f2 f3 f4 f5, fields = [f0, f1, f2, f3, f4, f5]
    ∧ CountText f0 c.count ∧ CountText f1 c.index ∧ SeqText f2 c.seqPresent c.seq
    ∧ ChanText f3 c.chanPresent c.chan ∧ FillText f5 c.fill

/-- The six fields of a carrier sentence of the `C` registers, `T` and `FILL`
(spec/44_fragment.md R249). -/
def carrierTextsOf (s : State) : List Text :=
  [decimal s.carr.count.toNat, decimal s.carr.index.toNat,
    if s.carr.seqPresent = true then decimal s.carr.seq.toNat else [],
    if s.carr.chanPresent = true then [s.carr.chan] else [],
    s.t, decimal s.fill.toNat]

/-- The items of one reassembly: `FRAG.BEGIN`, then for each line load, `NMEA.PARSE`, `FRAG.ADD`,
then `FRAG.END`, as command words (spec/44_fragment.md R248). -/
def reassemblyItems (lines : List Text) : List HostItem :=
  .command 0xA0000000#32
    :: (lines.flatMap
          (fun l => [.write (.t l), .command 0x80000000#32, .command 0xA8000000#32])
        ++ [.command 0xB0000000#32])

end Sys2Proof.Claims

open Sys2Proof Sys2Proof.Machine Sys2Proof.Claims

/-! ### Encoding -/

/-- Example words of spec/40_bitfield.md, 41 to 44 and spec/95_test_vectors.md, one at least for
each family, decode to the commands written beside them. -/
def Obligations.ExampleWordsDecodeAsWritten : Prop :=
  decode 0x080000A8#32 = .ok (.bfInit 168#16)
    ∧ decode 0x16080000#32 = .ok (.bfAppend .boolean 2#7)
    ∧ decode 0x1A100008#32 = .ok (.bfPack .signed 8#16 4#7)
    ∧ decode 0x1C100026#32 = .ok (.bfPack .enumerated 38#16 4#7)
    ∧ decode 0x20780008#32 = .ok (.bfUnpack .unsigned 8#16 30#7)
    ∧ decode 0x40000000#32 = .ok .armEnc
    ∧ decode 0x68000013#32 = .ok (.aisCast 19#6)
    ∧ decode 0x80000000#32 = .ok .nmeaParse
    ∧ decode 0xB8000000#32 = .ok .fragForm

/-- Decoding the word of a well-formed command gives the command back, with every operand at every
value the encoding admits. -/
def Obligations.DecodeOfEncodeIsTheCommand : Prop :=
  ∀ i : Instr, i.wellFormed = true → decode (encode i) = .ok i

/-- Every word the decoder accepts is the encoding of the well-formed command it is read as. -/
def Obligations.AcceptedWordIsItsOwnEncoding : Prop :=
  ∀ (cw : Word) (i : Instr), decode cw = .ok i → i.wellFormed = true ∧ encode i = cw

/-- R96: an illegal word raises `E_ILLEGAL` and changes nothing but `STATUS`; the all-zero word is
illegal; every other word is a command. -/
def Obligations.IllegalWordsRaiseIllegalAndNothingElse : Prop :=
  (∀ (cw : Word) (s : State), Illegal cw → issueCommand cw s = .next { s with status := 10#8 })
    ∧ Illegal 0#32
    ∧ ∀ cw : Word, ¬ Illegal cw → ∃ i, decode cw = .ok i

/-! ### Steps and the host -/

/-- On an idle block a step takes the next item off the host's list and does what that item says: a
write is `hostWrite`, a command word `issueCommand`, whatever the word, and reset `assertReset`; when
the word decodes to `i`, the step is `exec i`. The list is the model's choice (log entry 5). -/
def Obligations.StepExecutesTheDecodedCommand : Prop :=
  (∀ (s : State) (cw : Word) (rest : List HostItem) (i : Instr),
    s.busy = false → s.pending = .command cw :: rest → decode cw = .ok i →
      step s = exec i { s with pending := rest })
    ∧ (∀ (s : State) (item : HostItem) (rest : List HostItem),
        s.busy = false → s.pending = item :: rest →
          step s = takeItem item { s with pending := rest })
    ∧ ∀ t : State,
        (∀ w, takeItem (.write w) t = hostWrite w t)
          ∧ (∀ cw, takeItem (.command cw) t = issueCommand cw t)
          ∧ takeItem .reset t = .next (assertReset t)

/-- With nothing presented the block is idle and nothing changes (R301); a write, a read or a
command while `BUSY = 1` is refused by name, the model's form of "a model gives it no such move"
(R44, log entry 7). -/
def Obligations.StepWaitsForTheHostAndRefusesIntrusion : Prop :=
  ∀ s : State,
    (s.pending = [] → step s = .next s)
      ∧ ∀ item rest, s.pending = item :: rest → item ≠ .reset → s.busy = true →
          step s = .refused .hostActsWhileBusy

/-- R46: the value of every element after reset, under every configuration. -/
def Obligations.ResetValuesAreZeroOrEmpty : Prop :=
  ∀ c : Config,
    (State.resetWith c).val = 0#64 ∧ (State.resetWith c).res = 0#64
      ∧ (State.resetWith c).b = [] ∧ (State.resetWith c).t = []
      ∧ (State.resetWith c).fill = 0#3 ∧ (State.resetWith c).status = 0#8
      ∧ (State.resetWith c).csinfo = 0#16 ∧ (State.resetWith c).mtype = 0#6
      ∧ (State.resetWith c).mmin = 0#10 ∧ (State.resetWith c).mmax = 0#10
      ∧ (State.resetWith c).mvalid = false
      ∧ (State.resetWith c).sent = ⟨0#8, [], [], []⟩
      ∧ (State.resetWith c).carr = ⟨0#8, 0#8, false, 0#4, false, 0#8, 0#3⟩
      ∧ (State.resetWith c).cvalid = false
      ∧ (State.resetWith c).a = [] ∧ (State.resetWith c).afill = 0#3
      ∧ (State.resetWith c).aany = false ∧ (State.resetWith c).aerrc = 0#4
      ∧ (State.resetWith c).cfg = c
      ∧ State.reset = State.resetWith State.reset.cfg

/-- Reset, in any state, even while `BUSY = 1`, gives every element its reset value; the
configuration and the host's own list stay (R300). -/
def Obligations.ResetItemRestoresEveryElement : Prop :=
  ∀ (s : State) (rest : List HostItem), s.pending = .reset :: rest →
    step s = .next { State.resetWith s.cfg with pending := rest }

/-- The write rows of the table of R44: a write within the width or the capacity sets its element;
of `B` it also clears `MVALID`, of `S` or `C` it also clears `CVALID`. -/
def Obligations.HostWritesHaveTheTableEffects : Prop :=
  ∀ s : State,
    (∀ v, hostWrite (.val v) s = .next { s with val := v })
      ∧ (∀ v, hostWrite (.fill v) s = .next { s with fill := v })
      ∧ (∀ v, v.length ≤ s.cfg.tcap → hostWrite (.t v) s = .next { s with t := v })
      ∧ (∀ v, v.length ≤ s.cfg.bcap →
          hostWrite (.b v) s = .next { s with b := v, mvalid := false })
      ∧ (∀ v, hostWrite (.start v) s =
          .next { s with sent := { s.sent with start := v }, cvalid := false })
      ∧ (∀ v, v.length + s.sent.tag.length + (s.sent.fields.map List.length).sum ≤ s.cfg.tcap →
          hostWrite (.talker v) s =
            .next { s with sent := { s.sent with talker := v }, cvalid := false })
      ∧ (∀ v, s.sent.talker.length + v.length + (s.sent.fields.map List.length).sum
            ≤ s.cfg.tcap →
          hostWrite (.tag v) s =
            .next { s with sent := { s.sent with tag := v }, cvalid := false })
      ∧ (∀ v, s.sent.talker.length + s.sent.tag.length + (v.map List.length).sum ≤ s.cfg.tcap →
          hostWrite (.fields v) s =
            .next { s with sent := { s.sent with fields := v }, cvalid := false })
      ∧ (∀ v, hostWrite (.count v) s =
          .next { s with carr := { s.carr with count := v }, cvalid := false })
      ∧ (∀ v, hostWrite (.index v) s =
          .next { s with carr := { s.carr with index := v }, cvalid := false })
      ∧ (∀ v, hostWrite (.seqPresent v) s =
          .next { s with carr := { s.carr with seqPresent := v }, cvalid := false })
      ∧ (∀ v, hostWrite (.seq v) s =
          .next { s with carr := { s.carr with seq := v }, cvalid := false })
      ∧ (∀ v, hostWrite (.chanPresent v) s =
          .next { s with carr := { s.carr with chanPresent := v }, cvalid := false })
      ∧ (∀ v, hostWrite (.chan v) s =
          .next { s with carr := { s.carr with chan := v }, cvalid := false })
      ∧ (∀ v, hostWrite (.carrierFill v) s =
          .next { s with carr := { s.carr with fill := v }, cvalid := false })

/-- R72, R44: what a read of each element returns, a bit of `B` by its index and the lengths by their
names among them, and that a read changes nothing. Every element can be read, and every registry
entry (the model's choice, log entry 24); a single bit of `B` exactly when its index is below `BLEN`
(R25), else the read is refused (log entry 6). -/
def Obligations.HostReadsHaveNoSideEffect : Prop :=
  (∀ (s : State) (rest : List HostItem), s.busy = false →
    (∀ e, (∀ i, e ≠ .bit i) → s.pending = .read e :: rest →
        step s = .next { s with pending := rest })
      ∧ (∀ i, i < s.b.length → s.pending = .read (.bit i) :: rest →
          step s = .next { s with pending := rest })
      ∧ (∀ i, s.b.length ≤ i → s.pending = .read (.bit i) :: rest →
          step s = .refused .hostReadPastEnd))
    ∧ ∀ s : State,
      hostRead .val s = some (.number s.val.toNat)
        ∧ hostRead .res s = some (.number s.res.toNat)
        ∧ hostRead .b s = some (.bits s.b)
        ∧ (∀ i, ∀ h : i < s.b.length,
            hostRead (.bit i) s = some (.number (if s.b[i] = true then 1 else 0)))
        ∧ (∀ i, s.b.length ≤ i → hostRead (.bit i) s = none)
        ∧ hostRead .blen s = some (.number s.b.length)
        ∧ hostRead .t s = some (.text s.t) ∧ hostRead .tlen s = some (.number s.t.length)
        ∧ hostRead .fill s = some (.number s.fill.toNat)
        ∧ hostRead .status s = some (.number s.status.toNat)
        ∧ hostRead .csinfo s = some (.number s.csinfo.toNat)
        ∧ hostRead .mtype s = some (.number s.mtype.toNat)
        ∧ hostRead .mmin s = some (.number s.mmin.toNat)
        ∧ hostRead .mmax s = some (.number s.mmax.toNat)
        ∧ hostRead .mvalid s = some (.number (if s.mvalid = true then 1 else 0))
        ∧ hostRead .start s = some (.number s.sent.start.toNat)
        ∧ hostRead .talker s = some (.text s.sent.talker)
        ∧ hostRead .tag s = some (.text s.sent.tag)
        ∧ hostRead .fields s = some (.texts s.sent.fields)
        ∧ hostRead .nf s = some (.number s.sent.fields.length)
        ∧ hostRead .count s = some (.number s.carr.count.toNat)
        ∧ hostRead .index s = some (.number s.carr.index.toNat)
        ∧ hostRead .seqPresent s = some (.number (if s.carr.seqPresent = true then 1 else 0))
        ∧ hostRead .seq s = some (.number s.carr.seq.toNat)
        ∧ hostRead .chanPresent s = some (.number (if s.carr.chanPresent = true then 1 else 0))
        ∧ hostRead .chan s = some (.number s.carr.chan.toNat)
        ∧ hostRead .carrierFill s = some (.number s.carr.fill.toNat)
        ∧ hostRead .cvalid s = some (.number (if s.cvalid = true then 1 else 0))
        ∧ hostRead .a s = some (.text s.a) ∧ hostRead .alen s = some (.number s.a.length)
        ∧ hostRead .afill s = some (.number s.afill.toNat)
        ∧ hostRead .aany s = some (.number (if s.aany = true then 1 else 0))
        ∧ hostRead .aerrc s = some (.number s.aerrc.toNat)
        ∧ (∀ tid, hostRead (.msgReg tid) s = some (.declared (s.cfg.msgReg tid)))
        ∧ ∀ tag, hostRead (.tagReg tag) s = some (.fieldCount (s.cfg.tagReg tag))

/-! ### Bitfield engine -/

/-- R131: `BF.INIT n`, the word `0x08000000 | n`, gives `n` zero bits and clears `MVALID`, or raises `E_CAPACITY`. -/
def Obligations.InitGivesZeroBits : Prop :=
  ∀ (n : BitVec 16) (s : State),
    encode (.bfInit n) = 0x08000000#32 ||| n.setWidth 32
      ∧ (s.cfg.bcap < n.toNat → exec (.bfInit n) s = .next { s with status := 9#8 })
      ∧ (n.toNat ≤ s.cfg.bcap → ∃ t, exec (.bfInit n) s = .next t
          ∧ t.b.length = n.toNat ∧ (∀ i, i < n.toNat → t.b[i]? = some false)
          ∧ t = { s with b := t.b, mvalid := false, status := 0#8 })

/-- R133: `BF.APPEND.k wid`, the word `0x10000000 | kind << 25 | wid << 18`, adds the field at the end, most significant bit first, and leaves the
bits already there, or raises `E_CAPACITY`. -/
def Obligations.AppendAddsTheFieldAtTheEnd : Prop :=
  ∀ (k : Kind) (wid : BitVec 7) (s : State), legalWidth wid = true →
    encode (.bfAppend k wid)
        = (0x10000000#32 ||| kindBits k <<< 25 ||| wid.setWidth 32 <<< 18)
      ∧ (s.cfg.bcap < s.b.length + wid.toNat →
        exec (.bfAppend k wid) s = .next { s with status := 9#8 })
      ∧ (s.b.length + wid.toNat ≤ s.cfg.bcap → ∃ t, exec (.bfAppend k wid) s = .next t
          ∧ t.b.length = s.b.length + wid.toNat
          ∧ (∀ i, i < s.b.length → t.b[i]? = s.b[i]?)
          ∧ (∀ i, i < wid.toNat →
              t.b[s.b.length + i]? = some (storedBit k s.val (wid.toNat - 1 - i)))
          ∧ t = { s with b := t.b, mvalid := false, status := 0#8 })

/-- R135 and R137: `BF.PACK.k off, wid`, the word `0x18000000 | kind << 25 | wid << 18 | off`, writes the field's bits and no other bit, the length
unchanged; beyond the end it raises `E_BOUNDS` and writes nothing. -/
def Obligations.PackWritesTheFieldOnly : Prop :=
  ∀ (k : Kind) (off : BitVec 16) (wid : BitVec 7) (s : State), legalWidth wid = true →
    encode (.bfPack k off wid)
        = (0x18000000#32 ||| kindBits k <<< 25 ||| wid.setWidth 32 <<< 18 ||| off.setWidth 32)
      ∧ (s.b.length < off.toNat + wid.toNat →
        exec (.bfPack k off wid) s = .next { s with status := 7#8 })
      ∧ (off.toNat + wid.toNat ≤ s.b.length → ∃ t, exec (.bfPack k off wid) s = .next t
          ∧ t.b.length = s.b.length
          ∧ (∀ i, i < off.toNat ∨ off.toNat + wid.toNat ≤ i → t.b[i]? = s.b[i]?)
          ∧ (∀ i, i < wid.toNat →
              t.b[off.toNat + i]? = some (storedBit k s.val (wid.toNat - 1 - i)))
          ∧ t = { s with b := t.b, mvalid := false, status := 0#8 })

/-- R142: `BF.UNPACK.k off, wid`, the word `0x20000000 | kind << 25 | wid << 18 | off`, puts the field's number, extended by its kind, into `RES` and
changes nothing else; beyond the end it raises `E_BOUNDS` and `RES` keeps its value. -/
def Obligations.UnpackReadsTheField : Prop :=
  ∀ (k : Kind) (off : BitVec 16) (wid : BitVec 7) (s : State), legalWidth wid = true →
    encode (.bfUnpack k off wid)
        = (0x20000000#32 ||| kindBits k <<< 25 ||| wid.setWidth 32 <<< 18 ||| off.setWidth 32)
      ∧ (s.b.length < off.toNat + wid.toNat →
        exec (.bfUnpack k off wid) s = .next { s with status := 7#8 })
      ∧ (off.toNat + wid.toNat ≤ s.b.length → ∃ t, exec (.bfUnpack k off wid) s = .next t
          ∧ (k = .unsigned ∨ k = .enumerated →
              t.res.toNat = fieldSum s.b off.toNat wid.toNat)
          ∧ (k = .signed → t.res.toInt =
              if fieldSum s.b off.toNat wid.toNat < 2 ^ (wid.toNat - 1)
              then (fieldSum s.b off.toNat wid.toNat : Int)
              else (fieldSum s.b off.toNat wid.toNat : Int) - 2 ^ wid.toNat)
          ∧ (k = .boolean →
              t.res.toNat = if fieldSum s.b off.toNat wid.toNat = 0 then 0 else 1)
          ∧ t = { s with res := t.res, status := 0#8 })

/-- R143, R144, R145: an unsigned or enumerated result is the field's number, below `2^wid`; a
signed one is its two's complement reading, in `-2^(wid-1) .. 2^(wid-1) - 1`, 0 or minus 1 for width
1, the number itself for width 64; a boolean one is 0 or 1, and 1 exactly when a bit of the field
is 1. -/
def Obligations.UnpackedValueFitsItsWidth : Prop :=
  ∀ (k : Kind) (off : BitVec 16) (wid : BitVec 7) (s : State), legalWidth wid = true →
    off.toNat + wid.toNat ≤ s.b.length →
      ∃ t, exec (.bfUnpack k off wid) s = .next t
        ∧ (k = .unsigned ∨ k = .enumerated →
            t.res.toNat = fieldSum s.b off.toNat wid.toNat ∧ t.res.toNat < 2 ^ wid.toNat)
        ∧ (k = .signed →
            (t.res.toInt = fieldSum s.b off.toNat wid.toNat
                ∨ t.res.toInt = (fieldSum s.b off.toNat wid.toNat : Int) - 2 ^ wid.toNat)
              ∧ -2 ^ (wid.toNat - 1) ≤ t.res.toInt ∧ t.res.toInt < 2 ^ (wid.toNat - 1)
              ∧ (wid = 1#7 → t.res = 0#64 ∨ t.res = BitVec.allOnes 64)
              ∧ (wid = 64#7 → t.res.toNat = fieldSum s.b off.toNat 64))
        ∧ (k = .boolean →
            (t.res = 0#64 ∨ t.res = 1#64)
              ∧ (t.res = 1#64 ↔ ∃ i, i < wid.toNat ∧ s.b[off.toNat + i]? = some true))

/-- What a pack stores, an unpack of the same field returns, extended by its kind. -/
def Obligations.PackThenUnpackReturnsTheValue : Prop :=
  ∀ (k : Kind) (off : BitVec 16) (wid : BitVec 7) (s : State), legalWidth wid = true →
    off.toNat + wid.toNat ≤ s.b.length →
      ∃ t u, exec (.bfPack k off wid) s = .next t ∧ exec (.bfUnpack k off wid) t = .next u
        ∧ u.status = 0#8
        ∧ (k = .unsigned ∨ k = .enumerated →
            u.res = (s.val.setWidth wid.toNat).setWidth 64)
        ∧ (k = .signed → u.res = (s.val.setWidth wid.toNat).signExtend 64)
        ∧ (k = .boolean → u.res = if s.val = 0#64 then 0#64 else 1#64)

/-- Packing back what an unsigned unpack read leaves `B` as it was. -/
def Obligations.UnpackThenPackLeavesTheBits : Prop :=
  ∀ (off : BitVec 16) (wid : BitVec 7) (s : State), legalWidth wid = true →
    off.toNat + wid.toNat ≤ s.b.length →
      ∃ t u, exec (.bfUnpack .unsigned off wid) s = .next t
        ∧ exec (.bfPack .unsigned off wid) { t with val := t.res } = .next u
        ∧ u.status = 0#8 ∧ u.b = s.b

/-- Packs of two fields that do not overlap give the same bits in either order. -/
def Obligations.PacksOfDisjointFieldsCommute : Prop :=
  ∀ (k₁ k₂ : Kind) (off₁ off₂ : BitVec 16) (wid₁ wid₂ : BitVec 7) (v₁ v₂ : BitVec 64)
    (s : State),
    legalWidth wid₁ = true → legalWidth wid₂ = true →
    off₁.toNat + wid₁.toNat ≤ s.b.length → off₂.toNat + wid₂.toNat ≤ s.b.length →
    off₁.toNat + wid₁.toNat ≤ off₂.toNat ∨ off₂.toNat + wid₂.toNat ≤ off₁.toNat →
      ∃ t₁ t₁₂ t₂ t₂₁,
        exec (.bfPack k₁ off₁ wid₁) { s with val := v₁ } = .next t₁
          ∧ exec (.bfPack k₂ off₂ wid₂) { t₁ with val := v₂ } = .next t₁₂
          ∧ exec (.bfPack k₂ off₂ wid₂) { s with val := v₂ } = .next t₂
          ∧ exec (.bfPack k₁ off₁ wid₁) { t₂ with val := v₁ } = .next t₂₁
          ∧ t₁₂.b = t₂₁.b

/-! ### Armor codec -/

/-- The two ranges of the encode table, the bytes that decode, and that the two directions are
inverse. -/
def Obligations.ArmorAlphabetIsABijection : Prop :=
  (∀ v : BitVec 6, v.toNat ≤ 39 → (enc6 v).toNat = 0x30 + v.toNat)
    ∧ (∀ v : BitVec 6, 40 ≤ v.toNat → (enc6 v).toNat = 0x38 + v.toNat)
    ∧ (∀ v : BitVec 6, dec6 (enc6 v) = some v)
    ∧ (∀ (c : Byte) (v : BitVec 6), dec6 c = some v → enc6 v = c)
    ∧ (∀ c : Byte, dec6 c = none ↔
        c.toNat < 0x30 ∨ (0x58 ≤ c.toNat ∧ c.toNat ≤ 0x5F) ∨ 0x78 ≤ c.toNat)

/-- R162: `ARM.ENC`, the word `0x40000000`, pads with zero bits to a multiple of six, writes one character for each group
and the number of padding bits to `FILL`, and leaves everything else; a text longer than `TCAP`
raises `E_CAPACITY`. -/
def Obligations.EncodeArmorsEveryGroup : Prop :=
  ∀ s : State,
    encode .armEnc = 0x40000000#32
      ∧ (s.cfg.tcap < (s.b.length + (6 - s.b.length % 6) % 6) / 6 →
        exec .armEnc s = .next { s with status := 9#8 })
      ∧ ((s.b.length + (6 - s.b.length % 6) % 6) / 6 ≤ s.cfg.tcap →
          ∃ t, exec .armEnc s = .next t
            ∧ t.t.length = (s.b.length + (6 - s.b.length % 6) % 6) / 6
            ∧ (∀ j, j < t.t.length →
                t.t[j]? = some (enc6 (BitVec.ofNat 6 (fieldSum s.b (6 * j) 6))))
            ∧ t.fill.toNat = (6 - s.b.length % 6) % 6
            ∧ t = { s with t := t.t, fill := t.fill, status := 0#8 })

/-- R165: `ARM.DEC`, the word `0x48000000`, makes its checks in the written order, and on success `B` holds six bits a
character, most significant first, less the last `FILL` bits. -/
def Obligations.DecodeArmorBitByBit : Prop :=
  ∀ s : State,
    encode .armDec = 0x48000000#32
      ∧ (5 < s.fill.toNat → exec .armDec s = .next { s with status := 6#8 })
      ∧ (s.fill.toNat ≤ 5 → s.cfg.bcap < 6 * s.t.length →
          exec .armDec s = .next { s with status := 9#8 })
      ∧ (s.fill.toNat ≤ 5 → 6 * s.t.length ≤ s.cfg.bcap → (∃ c ∈ s.t, dec6 c = none) →
          exec .armDec s = .next { s with status := 1#8 })
      ∧ (s.fill.toNat ≤ 5 → 6 * s.t.length ≤ s.cfg.bcap → (∀ c ∈ s.t, dec6 c ≠ none) →
          6 * s.t.length < s.fill.toNat → exec .armDec s = .next { s with status := 1#8 })
      ∧ (s.fill.toNat ≤ 5 → 6 * s.t.length ≤ s.cfg.bcap → (∀ c ∈ s.t, dec6 c ≠ none) →
          s.fill.toNat ≤ 6 * s.t.length →
            ∃ t, exec .armDec s = .next t
              ∧ t.b.length = 6 * s.t.length - s.fill.toNat
              ∧ (∀ i, i < t.b.length → ∃ c g, s.t[i / 6]? = some c ∧ dec6 c = some g
                  ∧ t.b[i]? = some (g.getLsbD (5 - i % 6)))
              ∧ t = { s with b := t.b, mvalid := false, status := 0#8 })

/-- Bits to armor to bits: whenever the padded length fits both capacities, and so for every
length up to 936 under every configuration the sources allow. -/
def Obligations.ArmorRoundTripRestoresTheBits : Prop :=
  ∀ s : State,
    ((s.b.length + 5) / 6 ≤ s.cfg.tcap ∧ 6 * ((s.b.length + 5) / 6) ≤ s.cfg.bcap
        ∨ s.cfg.wf ∧ s.b.length ≤ 936) →
      ∃ t u, exec .armEnc s = .next t ∧ exec .armDec t = .next u
        ∧ t.status = 0#8 ∧ u.status = 0#8 ∧ u.b = s.b

/-- Armor to bits to armor: the fill comes back, and the text too except that the trimmed bits of
its last character are cleared. -/
def Obligations.ReencodingClearsOnlyTrimmedBits : Prop :=
  ∀ s : State, s.t.length ≤ s.cfg.tcap → s.fill.toNat ≤ 5 → 6 * s.t.length ≤ s.cfg.bcap →
    (∀ c ∈ s.t, dec6 c ≠ none) → s.fill.toNat ≤ 6 * s.t.length →
      ∃ t u, exec .armDec s = .next t ∧ exec .armEnc t = .next u
        ∧ t.status = 0#8 ∧ u.status = 0#8 ∧ u.fill = s.fill ∧ u.t.length = s.t.length
        ∧ (∀ j, j + 1 < s.t.length → u.t[j]? = s.t[j]?)
        ∧ (∀ c g, s.t.getLast? = some c → dec6 c = some g →
            u.t.getLast? = some (enc6 ((g >>> s.fill.toNat) <<< s.fill.toNat))
              ∧ (u.t = s.t ↔ g.toNat % 2 ^ s.fill.toNat = 0))

/-! ### Dispatcher -/

/-- The registry entries the sources fix, under every configuration they allow: the carrier tags are
exactly two, of three bytes, and have six fields, `"ZZZ"` is unregistered, types 1, 2, 3 and 19 have their sizes, 0 and 28 to 63 are
unregistered, every registered size is within `6 <= min <= max <= 936`, and every registered type
has a layout whose fields end within its maximum and whose first 6 bits are an unsigned field. -/
def Obligations.RegistriesHoldTheFixedEntries : Prop :=
  ∀ c : Config, c.wf →
    (∀ tag, c.isCarrier tag = true ↔ tag = c.carrierTag1 ∨ tag = c.carrierTag2)
      ∧ c.carrierTag1 ≠ c.carrierTag2
      ∧ c.carrierTag1.length = 3 ∧ c.carrierTag2.length = 3
      ∧ c.tagReg c.carrierTag1 = some 6 ∧ c.tagReg c.carrierTag2 = some 6
      ∧ c.tagReg [0x5A#8, 0x5A#8, 0x5A#8] = none
      ∧ (∀ tid : BitVec 6, tid.toNat = 1 ∨ tid.toNat = 2 ∨ tid.toNat = 3 →
          c.msgReg tid = some ⟨168#10, 168#10⟩)
      ∧ (∀ tid : BitVec 6, tid.toNat = 19 → c.msgReg tid = some ⟨312#10, 312#10⟩)
      ∧ (∀ tid : BitVec 6, tid.toNat = 0 ∨ 28 ≤ tid.toNat → c.msgReg tid = none)
      ∧ (∀ (tid : BitVec 6) (r : SizeRange), c.msgReg tid = some r →
          6 ≤ r.min.toNat ∧ r.min.toNat ≤ r.max.toNat ∧ r.max.toNat ≤ 936
            ∧ ∃ fields, c.layout tid = some fields
              ∧ (∀ d ∈ fields, d.offset + d.width ≤ r.max.toNat)
              ∧ ∃ d ∈ fields, d.offset = 0 ∧ d.width = 6 ∧ d.kind = .unsigned)

/-- R182: `AIS.DISPATCH`, the word `0x60000000`, in its four outcomes, each with every register it writes. -/
def Obligations.DispatchReportsTypeAndSize : Prop :=
  ∀ s : State,
    encode .aisDispatch = 0x60000000#32
      ∧ (s.b.length < 6 →
        exec .aisDispatch s = .next { s with mvalid := false, status := 7#8 })
      ∧ (6 ≤ s.b.length → ∀ tid : BitVec 6, tid.toNat = fieldSum s.b 0 6 →
          (s.cfg.msgReg tid = none →
              exec .aisDispatch s =
                .next { s with mvalid := false, mtype := tid, status := 4#8 })
            ∧ ∀ r, s.cfg.msgReg tid = some r →
                (s.b.length < r.min.toNat ∨ r.max.toNat < s.b.length →
                    exec .aisDispatch s =
                      .next { s with mvalid := false, mtype := tid, mmin := r.min, mmax := r.max,
                                     status := 5#8 })
                  ∧ (r.min.toNat ≤ s.b.length → s.b.length ≤ r.max.toNat →
                    exec .aisDispatch s =
                      .next { s with mvalid := true, mtype := tid, mmin := r.min, mmax := r.max,
                                     status := 0#8 }))

/-- R184: a registered type passes exactly when its length is within the declared size, a type of
one size exactly at that size; so under every configuration a type 1, 2 or 3 message passes exactly
at 168 bits and a type 19 message exactly at 312. -/
def Obligations.RegisteredTypesPassExactlyInTheirSize : Prop :=
  ∀ s : State, 6 ≤ s.b.length → ∃ t, exec .aisDispatch s = .next t
    ∧ (∀ (tid : BitVec 6) (r : SizeRange), tid.toNat = fieldSum s.b 0 6 →
        s.cfg.msgReg tid = some r →
        (t.status = 0#8 ↔ r.min.toNat ≤ s.b.length ∧ s.b.length ≤ r.max.toNat)
          ∧ (t.status = 5#8 ↔ s.b.length < r.min.toNat ∨ r.max.toNat < s.b.length)
          ∧ (r.min = r.max → (t.status = 0#8 ↔ s.b.length = r.min.toNat)))
    ∧ (fieldSum s.b 0 6 = 1 ∨ fieldSum s.b 0 6 = 2 ∨ fieldSum s.b 0 6 = 3 →
        (t.status = 0#8 ∧ t.mvalid = true ↔ s.b.length = 168)
          ∧ (s.b.length ≠ 168 → t.status = 5#8 ∧ t.mvalid = false))
    ∧ (fieldSum s.b 0 6 = 19 →
        (t.status = 0#8 ∧ t.mvalid = true ↔ s.b.length = 312)
          ∧ (s.b.length ≠ 312 → t.status = 5#8 ∧ t.mvalid = false))

/-- R185: type ID 0, 28 to 63, and any ID the configuration leaves unregistered, end in
`E_UNKNOWN_MESSAGE` with `MTYPE` the unknown ID. -/
def Obligations.UnregisteredTypesAreUnknown : Prop :=
  ∀ (s : State) (tid : BitVec 6), 6 ≤ s.b.length → tid.toNat = fieldSum s.b 0 6 →
    tid.toNat = 0 ∨ 28 ≤ tid.toNat ∨ s.cfg.msgReg tid = none →
      exec .aisDispatch s = .next { s with mvalid := false, mtype := tid, status := 4#8 }

/-- R187: `AIS.CAST id`, the word `0x68000000 | id`, gives 1 exactly when a valid dispatched message of type `id` is in `B`,
always `OK`. -/
def Obligations.CastTestsTheDispatchedType : Prop :=
  ∀ (id : BitVec 6) (s : State),
    encode (.aisCast id) = 0x68000000#32 ||| id.setWidth 32
      ∧ (s.mvalid = true → s.mtype = id →
        exec (.aisCast id) s = .next { s with res := 1#64, status := 0#8 })
      ∧ (s.mvalid = false ∨ s.mtype ≠ id →
        exec (.aisCast id) s = .next { s with res := 0#64, status := 0#8 })

/-- A zero sequence of a registered type's declared size, with that ID packed at offset 0,
dispatches to that ID. -/
def Obligations.BuiltMessageDispatchesToItsType : Prop :=
  ∀ (s : State) (tid : BitVec 6) (n : BitVec 10), s.cfg.wf →
    s.cfg.msgReg tid = some ⟨n, n⟩ → s.val = tid.setWidth 64 →
      ∃ t u w, exec (.bfInit (n.setWidth 16)) s = .next t
        ∧ exec (.bfPack .unsigned 0#16 6#7) t = .next u
        ∧ exec .aisDispatch u = .next w
        ∧ w.status = 0#8 ∧ w.mtype = tid ∧ w.mvalid = true

/-! ### Sentence envelope -/

/-- `NMEA.PARSE` of a well-formed line of a registered tag ends `OK` with the line's components in
`S`; for a carrier tag also in `C`, with `CVALID` set. Whatever the start token. -/
def Obligations.ParseDeliversAWellFormedLine : Prop :=
  ∀ (s : State) (x : Sentence), StartToken x.start → AddressShape x.talker x.tag →
    PlainSentence x → s.cfg.tagReg x.tag = some x.fields.length → s.t = lineOf x →
      (s.cfg.isCarrier x.tag = false →
          exec .nmeaParse s = .next { s with sent := x, cvalid := false, status := 0#8 })
        ∧ ∀ c, s.cfg.isCarrier x.tag = true → CarrierGrammar x.fields c →
          exec .nmeaParse s =
            .next { s with sent := x, carr := c, cvalid := true, status := 0#8 }

/-- R211, R212: a well-shaped line whose tag is not registered is an unknown sentence, whatever its
field count; with a registered tag a wrong count, or a carrier field outside the grammar, is a
format error. R241: `carrier_fields` gives values exactly for six fields in the grammar, and exactly
those values: count and index of 1 to 3 decimal digits, leading zeros read, at most 255; a sequence
id empty or one digit; a channel empty or one byte; any payload; fill bits one byte `'0'` to `'5'`;
anything else is invalid. -/
def Obligations.ParseRefusesUnknownTagThenCount : Prop :=
  (∀ fields : List Text,
    (∀ c, carrierFields fields = some c ↔ CarrierGrammar fields c)
      ∧ (carrierFields fields = none ↔ ∀ c, ¬ CarrierGrammar fields c))
  ∧ ∀ (s : State) (x : Sentence), StartToken x.start → AddressShape x.talker x.tag →
    PlainSentence x → s.t = lineOf x →
      (s.cfg.tagReg x.tag = none →
          exec .nmeaParse s = .next { s with cvalid := false, status := 3#8 })
        ∧ (∀ n, s.cfg.tagReg x.tag = some n → x.fields.length ≠ n →
          exec .nmeaParse s = .next { s with cvalid := false, status := 1#8 })
        ∧ (s.cfg.isCarrier x.tag = true → (∀ c, ¬ CarrierGrammar x.fields c) →
          exec .nmeaParse s = .next { s with cvalid := false, status := 1#8 })

/-- R205: an empty line, or one whose first byte is no start token, is a format error. -/
def Obligations.ParseNeedsAStartToken : Prop :=
  ∀ s : State, (∀ c, s.t.head? = some c → ¬ StartToken c) →
    exec .nmeaParse s = .next { s with cvalid := false, status := 1#8 }

/-- R206: no `'*'`, or after the first one anything but exactly two upper-case hexadecimal digits,
is a format error. -/
def Obligations.ParseNeedsAChecksumWindow : Prop :=
  ∀ (s : State) (start : Byte), StartToken start →
    (∀ rest, s.t = start :: rest → 0x2A#8 ∉ rest →
        exec .nmeaParse s = .next { s with cvalid := false, status := 1#8 })
      ∧ ∀ span window, s.t = start :: (span ++ 0x2A#8 :: window) → 0x2A#8 ∉ span →
        (window.length ≠ 2 ∨ ∃ c ∈ window, c ∉ hexAlphabet) →
          exec .nmeaParse s = .next { s with cvalid := false, status := 1#8 }

/-- R207: when the two digits write another value than the exclusive OR of the span, the command
ends in `E_CHECKSUM` with both values in `CSINFO`, whatever the address and the fields are. -/
def Obligations.ParseReportsBothChecksums : Prop :=
  ∀ (s : State) (start rx : Byte) (span : Text), StartToken start → 0x2A#8 ∉ span →
    s.t = start :: (span ++ 0x2A#8 :: hexUpper rx) → rx ≠ xorAll span →
      ∃ t, exec .nmeaParse s = .next t ∧ t.csRx = rx ∧ t.csCalc = xorAll span
        ∧ t = { s with cvalid := false, csinfo := t.csinfo, status := 2#8 }

/-- With a right checksum, an address (the text up to the first comma) that does not begin with
`'P'` and is not five characters long is a format error. -/
def Obligations.ParseRefusesOtherAddressLengths : Prop :=
  ∀ (s : State) (start : Byte) (span : Text), StartToken start → 0x2A#8 ∉ span →
    s.t = start :: (span ++ 0x2A#8 :: hexUpper (xorAll span)) →
    (span.takeWhile (· ≠ 0x2C#8)).head? ≠ some 0x50#8 →
    (span.takeWhile (· ≠ 0x2C#8)).length ≠ 5 →
      exec .nmeaParse s = .next { s with cvalid := false, status := 1#8 }

/-- A parse always completes; when it ends in an error it changes `CVALID`, `STATUS` and, for a
checksum error only, `CSINFO`. -/
def Obligations.FailedParseKeepsTheRegisters : Prop :=
  ∀ s : State, ∃ t, exec .nmeaParse s = .next t
    ∧ (t.status ≠ 2#8 → t.csinfo = s.csinfo)
    ∧ (t.status ≠ 0#8 →
        t = { s with cvalid := false, csinfo := t.csinfo, status := t.status })

/-- R216: `NMEA.RENDER`, the word `0x88000000`, makes its seven checks in order, and on success writes the line of the
sentence registers to `T` and nothing else. -/
def Obligations.RenderWritesTheLineOfTheRegisters : Prop :=
  ∀ s : State,
    encode .nmeaRender = 0x88000000#32
      ∧ (¬ StartToken s.sent.start → exec .nmeaRender s = .next { s with status := 6#8 })
      ∧ (¬ AddressShape s.sent.talker s.sent.tag →
          exec .nmeaRender s = .next { s with status := 6#8 })
      ∧ (¬ PlainSentence s.sent → exec .nmeaRender s = .next { s with status := 6#8 })
      ∧ (StartToken s.sent.start → AddressShape s.sent.talker s.sent.tag →
          PlainSentence s.sent →
          (s.cfg.tagReg s.sent.tag = none →
              exec .nmeaRender s = .next { s with status := 3#8 })
            ∧ ∀ n, s.cfg.tagReg s.sent.tag = some n →
              (s.sent.fields.length ≠ n → exec .nmeaRender s = .next { s with status := 1#8 })
                ∧ (s.sent.fields.length = n → s.cfg.isCarrier s.sent.tag = true →
                    (∀ c, ¬ CarrierGrammar s.sent.fields c) →
                    exec .nmeaRender s = .next { s with status := 1#8 })
                ∧ (s.sent.fields.length = n →
                    (s.cfg.isCarrier s.sent.tag = true → ∃ c, CarrierGrammar s.sent.fields c) →
                    (s.cfg.tcap < 1 + (spanOf s.sent).length + 3 →
                        exec .nmeaRender s = .next { s with status := 9#8 })
                      ∧ (1 + (spanOf s.sent).length + 3 ≤ s.cfg.tcap →
                        exec .nmeaRender s =
                          .next { s with t := lineOf s.sent, status := 0#8 })))

/-- R218: in a rendered line every field stands after its own comma, an empty one as nothing, and
the number of commas is the number of fields. -/
def Obligations.RenderKeepsTheFieldPlaces : Prop :=
  ∀ s t : State, exec .nmeaRender s = .next t → t.status = 0#8 →
    t.t.count 0x2C#8 = s.sent.fields.length
      ∧ ∃ tail, tail.length = 3 ∧ t.t = s.sent.start :: (s.sent.talker ++ s.sent.tag
          ++ s.sent.fields.flatMap (fun f => 0x2C#8 :: f) ++ tail)

/-- If a parse of a line ends `OK`, a render of what it delivered ends `OK` with the same line,
byte for byte. -/
def Obligations.RenderAfterParseRestoresTheLine : Prop :=
  ∀ s t : State, s.t.length ≤ s.cfg.tcap → exec .nmeaParse s = .next t → t.status = 0#8 →
    ∃ u, exec .nmeaRender t = .next u ∧ u.status = 0#8 ∧ u.t = s.t

/-- If a render ends `OK`, a parse of the line it wrote ends `OK` with the same sentence
registers. -/
def Obligations.ParseAfterRenderRestoresTheSentence : Prop :=
  ∀ s t : State, exec .nmeaRender s = .next t → t.status = 0#8 →
    ∃ u, exec .nmeaParse t = .next u ∧ u.status = 0#8 ∧ u.sent = s.sent

/-- Replacing one byte of the span of a line that parses by another byte is always detected: a
checksum error, or a format error when the new byte is `'*'`. -/
def Obligations.OneChangedByteIsDetected : Prop :=
  ∀ (s t : State) (start c y : Byte) (pre post window : Text),
    exec .nmeaParse s = .next t → t.status = 0#8 →
    s.t = start :: (pre ++ c :: post ++ 0x2A#8 :: window) → window.length = 2 → y ≠ c →
      ∃ u, exec .nmeaParse { s with t := start :: (pre ++ y :: post ++ 0x2A#8 :: window) }
          = .next u
        ∧ (y ≠ 0x2A#8 → u.status = 2#8 ∧ u.csRx ≠ u.csCalc)
        ∧ (y = 0x2A#8 → u.status = 1#8)

/-- After a parse that ends `OK` the strings of the sentence registers are together no longer than
the line. -/
def Obligations.ParsedSentenceFitsTheLine : Prop :=
  ∀ s t : State, exec .nmeaParse s = .next t → t.status = 0#8 →
    t.sent.talker.length + t.sent.tag.length + (t.sent.fields.map List.length).sum ≤ s.t.length

/-! ### Fragments -/

/-- R245: `FRAG.BEGIN`, the word `0xA0000000`, clears the accumulator alone. -/
def Obligations.FragBeginClearsTheAccumulator : Prop :=
  ∀ s : State, encode .fragBegin = 0xA0000000#32
    ∧ exec .fragBegin s =
      .next { s with a := [], afill := 0#3, aany := false, aerrc := 0#4, status := 0#8 }

/-- R246: `FRAG.ADD`, the word `0xA8000000`, in its four outcomes; with `CVALID` set the payload is `S.F[4]`. -/
def Obligations.FragAddAppendsThePayload : Prop :=
  ∀ s : State,
    encode .fragAdd = 0xA8000000#32
      ∧ (s.aerrc ≠ 0#4 → exec .fragAdd s = .next { s with status := s.aerrc.setWidth 8 })
      ∧ (s.aerrc = 0#4 → s.cvalid = false →
          exec .fragAdd s = .next { s with aerrc := 8#4, status := 8#8 })
      ∧ (s.aerrc = 0#4 → s.cvalid = true → ∀ p, s.sent.fields[4]? = some p →
          (s.cfg.tcap < s.a.length + p.length →
              exec .fragAdd s = .next { s with aerrc := 9#4, status := 9#8 })
            ∧ (s.a.length + p.length ≤ s.cfg.tcap →
              exec .fragAdd s =
                .next { s with a := s.a ++ p, afill := s.carr.fill, aany := true,
                               status := 0#8 }))

/-- R247: `FRAG.END`, the word `0xB0000000`, delivers the accumulator to `T` and `FILL`, or raises the earlier failure, or
`E_ILLEGAL` when no fragment was added. -/
def Obligations.FragEndDeliversTheText : Prop :=
  ∀ s : State,
    encode .fragEnd = 0xB0000000#32
      ∧ (s.aerrc ≠ 0#4 → exec .fragEnd s = .next { s with status := s.aerrc.setWidth 8 })
      ∧ (s.aerrc = 0#4 → s.aany = false → exec .fragEnd s = .next { s with status := 10#8 })
      ∧ (s.aerrc = 0#4 → s.aany = true →
          exec .fragEnd s = .next { s with t := s.a, fill := s.afill, status := 0#8 })

/-- `FRAG.FORM`, the word `0xB8000000` (R249), makes its three checks in order, and on success writes
`'!'` and the six carrier fields, decimal without leading zeros, absent items empty. When the strings
of the sentence registers would then total more than `TCAP`, it raises `E_CAPACITY` and writes nothing
else: that check is deduced from R8 and D5, not written in R249 (log entry 10). -/
def Obligations.FragFormWritesTheCarrierFields : Prop :=
  ∀ s : State,
    encode .fragForm = 0xB8000000#32
      ∧ (s.cfg.isCarrier s.sent.tag = false → exec .fragForm s = .next { s with status := 8#8 })
      ∧ (s.cfg.isCarrier s.sent.tag = true → 5 < s.fill.toNat →
          exec .fragForm s = .next { s with status := 6#8 })
      ∧ (s.cfg.isCarrier s.sent.tag = true → s.fill.toNat ≤ 5 →
          s.carr.seqPresent = true → 9 < s.carr.seq.toNat →
          exec .fragForm s = .next { s with status := 6#8 })
      ∧ (s.cfg.isCarrier s.sent.tag = true → s.fill.toNat ≤ 5 →
          (s.carr.seqPresent = true → s.carr.seq.toNat ≤ 9) →
          (s.cfg.tcap < s.sent.talker.length + s.sent.tag.length
                + ((carrierTextsOf s).map List.length).sum →
              exec .fragForm s = .next { s with status := 9#8 })
            ∧ (s.sent.talker.length + s.sent.tag.length
                + ((carrierTextsOf s).map List.length).sum ≤ s.cfg.tcap →
              exec .fragForm s =
                .next { s with
                  sent := { s.sent with start := 0x21#8, fields := carrierTextsOf s }
                  cvalid := false
                  status := 0#8 }))

/-- The fields `FRAG.FORM` writes are read back by the carrier grammar as the carrier registers
they came from, absent items as 0, the fill bits from `FILL`. -/
def Obligations.FormedFieldsReadBackAsTheRegisters : Prop :=
  ∀ s t : State, exec .fragForm s = .next t → t.status = 0#8 →
    carrierFields t.sent.fields =
      some { s.carr with
        seq := if s.carr.seqPresent = true then s.carr.seq else 0#4
        chan := if s.carr.chanPresent = true then s.carr.chan else 0#8
        fill := s.fill }

/-- Running `FRAG.BEGIN`, then load, `NMEA.PARSE`, `FRAG.ADD` for each of one or more carrier
lines, then `FRAG.END`, ends `OK` with `T` the payloads concatenated in the order given and `FILL`
the last line's fill bits. The items are the host's list `pending`, one a step: the model's choice
(log entry 5). -/
def Obligations.ReassemblyConcatenatesInOrder : Prop :=
  ∀ (s : State) (frags : List (Text × Sentence × Carrier)) (last : Text × Sentence × Carrier)
    (rest : List HostItem),
    s.busy = false → frags.getLast? = some last →
    (∀ f ∈ frags, f.1.length ≤ s.cfg.tcap ∧ parseLine s.cfg f.1 = .ok ⟨f.2.1, some f.2.2⟩) →
    ((frags.map (fun f => f.2.1.fields.getD 4 [])).flatten).length ≤ s.cfg.tcap →
    s.pending = reassemblyItems (frags.map (fun f => f.1)) ++ rest →
      ∃ t : State, Sys2Proof.core.run (3 * frags.length + 2) s = .next t
        ∧ t.pending = rest ∧ t.status = 0#8
        ∧ t.t = (frags.map (fun f => f.2.1.fields.getD 4 [])).flatten
        ∧ t.fill = last.2.2.fill

/-! ### The whole machine -/

/-- Every command word, legal or not, completes: the block answers a next state with `BUSY` and the
reserved bits 0. -/
def Obligations.EveryCommandWordCompletes : Prop :=
  ∀ (cw : Word) (s : State), ∃ t, issueCommand cw s = .next t
    ∧ t.busy = false ∧ t.status.toNat < 16

/-- R262: a command that ends in an error writes `STATUS` and the diagnostic registers of its own
error, and nothing else, with three exceptions: a parse clears `CVALID`, a dispatch clears
`MVALID`, a failing `FRAG.ADD` sets `AERRC`. `B`, `T`, `FILL`, `RES`, `S`, `C` and `A` are exactly as
before. -/
def Obligations.FailedCommandHasNoOutput : Prop :=
  ∀ (i : Instr) (s t : State), exec i s = .next t → t.err ≠ 0#4 →
    t = { s with status := t.status, csinfo := t.csinfo, cvalid := t.cvalid, mtype := t.mtype,
                 mmin := t.mmin, mmax := t.mmax, mvalid := t.mvalid, aerrc := t.aerrc }
      ∧ (t.err ≠ 2#4 → t.csinfo = s.csinfo)
      ∧ (t.err ≠ 4#4 → t.err ≠ 5#4 → t.mtype = s.mtype)
      ∧ (t.err ≠ 5#4 → t.mmin = s.mmin ∧ t.mmax = s.mmax)
      ∧ (i ≠ .nmeaParse → t.csinfo = s.csinfo ∧ t.cvalid = s.cvalid)
      ∧ (i = .nmeaParse → t.cvalid = false)
      ∧ (i ≠ .aisDispatch →
          t.mtype = s.mtype ∧ t.mmin = s.mmin ∧ t.mmax = s.mmax ∧ t.mvalid = s.mvalid)
      ∧ (i = .aisDispatch → t.mvalid = false)
      ∧ (i ≠ .fragAdd → t.aerrc = s.aerrc)
      ∧ (i = .fragAdd → t.aerrc = t.err)

/-- Which commands write which element: `VAL` and the configuration none, every other element
exactly those its rule names (R23 to R43). -/
def Obligations.ElementsAreWrittenOnlyByTheirCommands : Prop :=
  ∀ (i : Instr) (s t : State), exec i s = .next t →
    t.val = s.val ∧ t.cfg = s.cfg ∧ t.pending = s.pending
      ∧ ((∀ k off wid, i ≠ .bfUnpack k off wid) → (∀ id, i ≠ .aisCast id) → t.res = s.res)
      ∧ ((∀ n, i ≠ .bfInit n) → (∀ k wid, i ≠ .bfAppend k wid) →
          (∀ k off wid, i ≠ .bfPack k off wid) → i ≠ .armDec →
          t.b = s.b ∧ (i ≠ .aisDispatch → t.mvalid = s.mvalid))
      ∧ (i ≠ .armEnc → i ≠ .fragEnd → t.fill = s.fill ∧ (i ≠ .nmeaRender → t.t = s.t))
      ∧ (i ≠ .aisDispatch → t.mtype = s.mtype ∧ t.mmin = s.mmin ∧ t.mmax = s.mmax)
      ∧ (i ≠ .nmeaParse → t.csinfo = s.csinfo ∧ t.carr = s.carr
          ∧ (i ≠ .fragForm → t.sent = s.sent ∧ t.cvalid = s.cvalid))
      ∧ (i ≠ .fragBegin → i ≠ .fragAdd →
          t.a = s.a ∧ t.afill = s.afill ∧ t.aany = s.aany ∧ t.aerrc = s.aerrc)

/-- No error is sticky in `STATUS`: what a command does never depends on what `STATUS` held. -/
def Obligations.OutcomeIgnoresTheOldStatus : Prop :=
  ∀ (i : Instr) (s : State) (old : BitVec 8), exec i { s with status := old } = exec i s

/-- The outcomes of the first command after reset, under every configuration. -/
def Obligations.CommandsOnTheResetState : Prop :=
  ∀ (c : Config) (k : Kind) (off : BitVec 16) (wid : BitVec 7) (id : BitVec 6),
    legalWidth wid = true →
    exec (.bfUnpack k off wid) (State.resetWith c)
        = .next { State.resetWith c with status := 7#8 }
      ∧ exec .armEnc (State.resetWith c) = .next (State.resetWith c)
      ∧ exec .armDec (State.resetWith c) = .next (State.resetWith c)
      ∧ exec .aisDispatch (State.resetWith c) = .next { State.resetWith c with status := 7#8 }
      ∧ exec (.aisCast id) (State.resetWith c) = .next (State.resetWith c)
      ∧ exec .nmeaParse (State.resetWith c) = .next { State.resetWith c with status := 1#8 }
      ∧ exec .nmeaRender (State.resetWith c) = .next { State.resetWith c with status := 6#8 }
      ∧ exec .fragAdd (State.resetWith c)
          = .next { State.resetWith c with status := 8#8, aerrc := 8#4 }
      ∧ exec .fragEnd (State.resetWith c) = .next { State.resetWith c with status := 10#8 }
      ∧ exec .fragEnd { State.resetWith c with status := 8#8, aerrc := 8#4 }
          = .next { State.resetWith c with status := 8#8, aerrc := 8#4 }
      ∧ (c.isCarrier [] = false →
          exec .fragForm (State.resetWith c)
            = .next { State.resetWith c with status := 8#8 })

/-- The pseudo-instruction `BF.PACKV` is a host write of `VAL` and the pack; and a pseudo-instruction
does not issue the commands after one that ends in an error (R104). -/
def Obligations.PseudoInstructionsExpandAndStop : Prop :=
  (∀ (k : Kind) (off : BitVec 16) (wid : BitVec 7) (v : BitVec 64) (s : State),
      legalWidth wid = true →
      (Pseudo.packV k off wid v).run s = exec (.bfPack k off wid) { s with val := v })
    ∧ ∀ (cw : Word) (rest : List HostItem) (s t : State),
        takeItem (.command cw) s = .next t →
        (t.err ≠ 0#4 → runUntilError (.command cw :: rest) s = .next t)
          ∧ (t.err = 0#4 → runUntilError (.command cw :: rest) s = runUntilError rest t)

/-- The invariant holds right after reset, under every configuration the sources allow, the one of
State.reset among them. -/
def Obligations.ResetStateMeetsTheInvariant : Prop :=
  (∀ c : Config, c.wf → Inv (State.resetWith c)) ∧ State.reset.cfg.wf

/-- No step lets a buffer exceed its capacity, or the sentence registers together `TCAP` (for
`FRAG.FORM`: log entry 10). -/
def Obligations.StepKeepsTheCapacities : Prop :=
  ∀ s t : State, Memory.wf s → step s = .next t → Memory.wf t

/-- `MVALID` never outlives the message it speaks of: through every step, when it is 1, `B` holds
one message of the registered type `MTYPE` whose length the registry admits. -/
def Obligations.StepKeepsTheMeaningOfMvalid : Prop :=
  ∀ s t : State, MessageValid s → step s = .next t → MessageValid t

/-- `CVALID` never outlives the sentence it speaks of: through every step, when it is 1, `S` holds
a carrier sentence and `C` its decoded fields. -/
def Obligations.StepKeepsTheMeaningOfCvalid : Prop :=
  ∀ s t : State, CarrierValid s → step s = .next t → CarrierValid t

/-- Every step, whatever the host presents, keeps the invariant of the machine. -/
def Obligations.StepKeepsTheInvariant : Prop :=
  ∀ s t : State, Inv s → step s = .next t → Inv t

/-! ### Layouts -/

/-- Under every configuration the sources allow, a row of a layout becomes `BF.UNPACK` or `BF.PACK`
commands of legal widths that name exactly the row's bits, in order: one command with the row's own
kind, offset and width for a row of 1 to 64 bits. That a wider row is cut into unsigned commands is
the model's choice (log entry 23). -/
def Obligations.LayoutRowsBecomeLegalCommands : Prop :=
  ∀ (c : Config) (tid : BitVec 6) (fields : List FieldDescriptor) (d : FieldDescriptor),
    c.wf → c.layout tid = some fields → d ∈ fields →
      ∃ l : List (Kind × BitVec 16 × BitVec 7),
        fieldUnpack d = some (l.map (fun p => .bfUnpack p.1 p.2.1 p.2.2))
          ∧ fieldPack d = some (l.map (fun p => .bfPack p.1 p.2.1 p.2.2))
          ∧ (∀ p ∈ l, legalWidth p.2.2 = true)
          ∧ (∀ b : Bits, l.flatMap (fun p => (b.drop p.2.1.toNat).take p.2.2.toNat)
              = (b.drop d.offset).take d.width)
          ∧ (1 ≤ d.width → d.width ≤ 64 → ∃ off wid, l = [(d.kind, off, wid)]
              ∧ off.toNat = d.offset ∧ wid.toNat = d.width)
          ∧ (64 < d.width → ∀ p ∈ l, p.1 = .unsigned)
end

