-- ==== Sys2Proof/Laws/State.lean ====
section
/-!
SUPPORT. One lemma per field for each update of State that has a name, true by rfl, so that no
later proof unfolds a record update; and what the accessors of `STATUS` and `CSINFO` read after
one.
-/

namespace Sys2Proof.Machine

/-! ### `State.setErr` -/

@[simp] theorem State.setErr_val (code : BitVec 4) (s : State) :
    (s.setErr code).val = s.val := rfl
@[simp] theorem State.setErr_res (code : BitVec 4) (s : State) :
    (s.setErr code).res = s.res := rfl
@[simp] theorem State.setErr_b (code : BitVec 4) (s : State) :
    (s.setErr code).b = s.b := rfl
@[simp] theorem State.setErr_t (code : BitVec 4) (s : State) :
    (s.setErr code).t = s.t := rfl
@[simp] theorem State.setErr_fill (code : BitVec 4) (s : State) :
    (s.setErr code).fill = s.fill := rfl
@[simp] theorem State.setErr_status (code : BitVec 4) (s : State) :
    (s.setErr code).status = statusWord code := rfl
@[simp] theorem State.setErr_csinfo (code : BitVec 4) (s : State) :
    (s.setErr code).csinfo = s.csinfo := rfl
@[simp] theorem State.setErr_mtype (code : BitVec 4) (s : State) :
    (s.setErr code).mtype = s.mtype := rfl
@[simp] theorem State.setErr_mmin (code : BitVec 4) (s : State) :
    (s.setErr code).mmin = s.mmin := rfl
@[simp] theorem State.setErr_mmax (code : BitVec 4) (s : State) :
    (s.setErr code).mmax = s.mmax := rfl
@[simp] theorem State.setErr_mvalid (code : BitVec 4) (s : State) :
    (s.setErr code).mvalid = s.mvalid := rfl
@[simp] theorem State.setErr_sent (code : BitVec 4) (s : State) :
    (s.setErr code).sent = s.sent := rfl
@[simp] theorem State.setErr_carr (code : BitVec 4) (s : State) :
    (s.setErr code).carr = s.carr := rfl
@[simp] theorem State.setErr_cvalid (code : BitVec 4) (s : State) :
    (s.setErr code).cvalid = s.cvalid := rfl
@[simp] theorem State.setErr_a (code : BitVec 4) (s : State) :
    (s.setErr code).a = s.a := rfl
@[simp] theorem State.setErr_afill (code : BitVec 4) (s : State) :
    (s.setErr code).afill = s.afill := rfl
@[simp] theorem State.setErr_aany (code : BitVec 4) (s : State) :
    (s.setErr code).aany = s.aany := rfl
@[simp] theorem State.setErr_aerrc (code : BitVec 4) (s : State) :
    (s.setErr code).aerrc = s.aerrc := rfl
@[simp] theorem State.setErr_cfg (code : BitVec 4) (s : State) :
    (s.setErr code).cfg = s.cfg := rfl
@[simp] theorem State.setErr_pending (code : BitVec 4) (s : State) :
    (s.setErr code).pending = s.pending := rfl

/-! ### `State.setIdle` -/

@[simp] theorem State.setIdle_val (s : State) :
    (s.setIdle).val = s.val := rfl
@[simp] theorem State.setIdle_res (s : State) :
    (s.setIdle).res = s.res := rfl
@[simp] theorem State.setIdle_b (s : State) :
    (s.setIdle).b = s.b := rfl
@[simp] theorem State.setIdle_t (s : State) :
    (s.setIdle).t = s.t := rfl
@[simp] theorem State.setIdle_fill (s : State) :
    (s.setIdle).fill = s.fill := rfl
@[simp] theorem State.setIdle_status (s : State) :
    (s.setIdle).status = s.status &&& 0xEF#8 := rfl
@[simp] theorem State.setIdle_csinfo (s : State) :
    (s.setIdle).csinfo = s.csinfo := rfl
@[simp] theorem State.setIdle_mtype (s : State) :
    (s.setIdle).mtype = s.mtype := rfl
@[simp] theorem State.setIdle_mmin (s : State) :
    (s.setIdle).mmin = s.mmin := rfl
@[simp] theorem State.setIdle_mmax (s : State) :
    (s.setIdle).mmax = s.mmax := rfl
@[simp] theorem State.setIdle_mvalid (s : State) :
    (s.setIdle).mvalid = s.mvalid := rfl
@[simp] theorem State.setIdle_sent (s : State) :
    (s.setIdle).sent = s.sent := rfl
@[simp] theorem State.setIdle_carr (s : State) :
    (s.setIdle).carr = s.carr := rfl
@[simp] theorem State.setIdle_cvalid (s : State) :
    (s.setIdle).cvalid = s.cvalid := rfl
@[simp] theorem State.setIdle_a (s : State) :
    (s.setIdle).a = s.a := rfl
@[simp] theorem State.setIdle_afill (s : State) :
    (s.setIdle).afill = s.afill := rfl
@[simp] theorem State.setIdle_aany (s : State) :
    (s.setIdle).aany = s.aany := rfl
@[simp] theorem State.setIdle_aerrc (s : State) :
    (s.setIdle).aerrc = s.aerrc := rfl
@[simp] theorem State.setIdle_cfg (s : State) :
    (s.setIdle).cfg = s.cfg := rfl
@[simp] theorem State.setIdle_pending (s : State) :
    (s.setIdle).pending = s.pending := rfl

/-! ### `State.setChecksums` -/

@[simp] theorem State.setChecksums_val (rx computed : Byte) (s : State) :
    (s.setChecksums rx computed).val = s.val := rfl
@[simp] theorem State.setChecksums_res (rx computed : Byte) (s : State) :
    (s.setChecksums rx computed).res = s.res := rfl
@[simp] theorem State.setChecksums_b (rx computed : Byte) (s : State) :
    (s.setChecksums rx computed).b = s.b := rfl
@[simp] theorem State.setChecksums_t (rx computed : Byte) (s : State) :
    (s.setChecksums rx computed).t = s.t := rfl
@[simp] theorem State.setChecksums_fill (rx computed : Byte) (s : State) :
    (s.setChecksums rx computed).fill = s.fill := rfl
@[simp] theorem State.setChecksums_status (rx computed : Byte) (s : State) :
    (s.setChecksums rx computed).status = s.status := rfl
@[simp] theorem State.setChecksums_csinfo (rx computed : Byte) (s : State) :
    (s.setChecksums rx computed).csinfo = rx ++ computed := rfl
@[simp] theorem State.setChecksums_mtype (rx computed : Byte) (s : State) :
    (s.setChecksums rx computed).mtype = s.mtype := rfl
@[simp] theorem State.setChecksums_mmin (rx computed : Byte) (s : State) :
    (s.setChecksums rx computed).mmin = s.mmin := rfl
@[simp] theorem State.setChecksums_mmax (rx computed : Byte) (s : State) :
    (s.setChecksums rx computed).mmax = s.mmax := rfl
@[simp] theorem State.setChecksums_mvalid (rx computed : Byte) (s : State) :
    (s.setChecksums rx computed).mvalid = s.mvalid := rfl
@[simp] theorem State.setChecksums_sent (rx computed : Byte) (s : State) :
    (s.setChecksums rx computed).sent = s.sent := rfl
@[simp] theorem State.setChecksums_carr (rx computed : Byte) (s : State) :
    (s.setChecksums rx computed).carr = s.carr := rfl
@[simp] theorem State.setChecksums_cvalid (rx computed : Byte) (s : State) :
    (s.setChecksums rx computed).cvalid = s.cvalid := rfl
@[simp] theorem State.setChecksums_a (rx computed : Byte) (s : State) :
    (s.setChecksums rx computed).a = s.a := rfl
@[simp] theorem State.setChecksums_afill (rx computed : Byte) (s : State) :
    (s.setChecksums rx computed).afill = s.afill := rfl
@[simp] theorem State.setChecksums_aany (rx computed : Byte) (s : State) :
    (s.setChecksums rx computed).aany = s.aany := rfl
@[simp] theorem State.setChecksums_aerrc (rx computed : Byte) (s : State) :
    (s.setChecksums rx computed).aerrc = s.aerrc := rfl
@[simp] theorem State.setChecksums_cfg (rx computed : Byte) (s : State) :
    (s.setChecksums rx computed).cfg = s.cfg := rfl
@[simp] theorem State.setChecksums_pending (rx computed : Byte) (s : State) :
    (s.setChecksums rx computed).pending = s.pending := rfl

/-! ### `State.writeB` -/

@[simp] theorem State.writeB_val (v : Bits) (s : State) :
    (s.writeB v).val = s.val := rfl
@[simp] theorem State.writeB_res (v : Bits) (s : State) :
    (s.writeB v).res = s.res := rfl
@[simp] theorem State.writeB_b (v : Bits) (s : State) :
    (s.writeB v).b = v := rfl
@[simp] theorem State.writeB_t (v : Bits) (s : State) :
    (s.writeB v).t = s.t := rfl
@[simp] theorem State.writeB_fill (v : Bits) (s : State) :
    (s.writeB v).fill = s.fill := rfl
@[simp] theorem State.writeB_status (v : Bits) (s : State) :
    (s.writeB v).status = s.status := rfl
@[simp] theorem State.writeB_csinfo (v : Bits) (s : State) :
    (s.writeB v).csinfo = s.csinfo := rfl
@[simp] theorem State.writeB_mtype (v : Bits) (s : State) :
    (s.writeB v).mtype = s.mtype := rfl
@[simp] theorem State.writeB_mmin (v : Bits) (s : State) :
    (s.writeB v).mmin = s.mmin := rfl
@[simp] theorem State.writeB_mmax (v : Bits) (s : State) :
    (s.writeB v).mmax = s.mmax := rfl
@[simp] theorem State.writeB_mvalid (v : Bits) (s : State) :
    (s.writeB v).mvalid = false := rfl
@[simp] theorem State.writeB_sent (v : Bits) (s : State) :
    (s.writeB v).sent = s.sent := rfl
@[simp] theorem State.writeB_carr (v : Bits) (s : State) :
    (s.writeB v).carr = s.carr := rfl
@[simp] theorem State.writeB_cvalid (v : Bits) (s : State) :
    (s.writeB v).cvalid = s.cvalid := rfl
@[simp] theorem State.writeB_a (v : Bits) (s : State) :
    (s.writeB v).a = s.a := rfl
@[simp] theorem State.writeB_afill (v : Bits) (s : State) :
    (s.writeB v).afill = s.afill := rfl
@[simp] theorem State.writeB_aany (v : Bits) (s : State) :
    (s.writeB v).aany = s.aany := rfl
@[simp] theorem State.writeB_aerrc (v : Bits) (s : State) :
    (s.writeB v).aerrc = s.aerrc := rfl
@[simp] theorem State.writeB_cfg (v : Bits) (s : State) :
    (s.writeB v).cfg = s.cfg := rfl
@[simp] theorem State.writeB_pending (v : Bits) (s : State) :
    (s.writeB v).pending = s.pending := rfl

/-! ### `State.touchCarrier` -/

@[simp] theorem State.touchCarrier_val (c : Carrier) (s : State) :
    (s.touchCarrier c).val = s.val := rfl
@[simp] theorem State.touchCarrier_res (c : Carrier) (s : State) :
    (s.touchCarrier c).res = s.res := rfl
@[simp] theorem State.touchCarrier_b (c : Carrier) (s : State) :
    (s.touchCarrier c).b = s.b := rfl
@[simp] theorem State.touchCarrier_t (c : Carrier) (s : State) :
    (s.touchCarrier c).t = s.t := rfl
@[simp] theorem State.touchCarrier_fill (c : Carrier) (s : State) :
    (s.touchCarrier c).fill = s.fill := rfl
@[simp] theorem State.touchCarrier_status (c : Carrier) (s : State) :
    (s.touchCarrier c).status = s.status := rfl
@[simp] theorem State.touchCarrier_csinfo (c : Carrier) (s : State) :
    (s.touchCarrier c).csinfo = s.csinfo := rfl
@[simp] theorem State.touchCarrier_mtype (c : Carrier) (s : State) :
    (s.touchCarrier c).mtype = s.mtype := rfl
@[simp] theorem State.touchCarrier_mmin (c : Carrier) (s : State) :
    (s.touchCarrier c).mmin = s.mmin := rfl
@[simp] theorem State.touchCarrier_mmax (c : Carrier) (s : State) :
    (s.touchCarrier c).mmax = s.mmax := rfl
@[simp] theorem State.touchCarrier_mvalid (c : Carrier) (s : State) :
    (s.touchCarrier c).mvalid = s.mvalid := rfl
@[simp] theorem State.touchCarrier_sent (c : Carrier) (s : State) :
    (s.touchCarrier c).sent = s.sent := rfl
@[simp] theorem State.touchCarrier_carr (c : Carrier) (s : State) :
    (s.touchCarrier c).carr = c := rfl
@[simp] theorem State.touchCarrier_cvalid (c : Carrier) (s : State) :
    (s.touchCarrier c).cvalid = false := rfl
@[simp] theorem State.touchCarrier_a (c : Carrier) (s : State) :
    (s.touchCarrier c).a = s.a := rfl
@[simp] theorem State.touchCarrier_afill (c : Carrier) (s : State) :
    (s.touchCarrier c).afill = s.afill := rfl
@[simp] theorem State.touchCarrier_aany (c : Carrier) (s : State) :
    (s.touchCarrier c).aany = s.aany := rfl
@[simp] theorem State.touchCarrier_aerrc (c : Carrier) (s : State) :
    (s.touchCarrier c).aerrc = s.aerrc := rfl
@[simp] theorem State.touchCarrier_cfg (c : Carrier) (s : State) :
    (s.touchCarrier c).cfg = s.cfg := rfl
@[simp] theorem State.touchCarrier_pending (c : Carrier) (s : State) :
    (s.touchCarrier c).pending = s.pending := rfl

/-! ### `State.touchSentence` -/

@[simp] theorem State.touchSentence_val (x : Sentence) (s : State) :
    (s.touchSentence x).val = s.val := rfl
@[simp] theorem State.touchSentence_res (x : Sentence) (s : State) :
    (s.touchSentence x).res = s.res := rfl
@[simp] theorem State.touchSentence_b (x : Sentence) (s : State) :
    (s.touchSentence x).b = s.b := rfl
@[simp] theorem State.touchSentence_t (x : Sentence) (s : State) :
    (s.touchSentence x).t = s.t := rfl
@[simp] theorem State.touchSentence_fill (x : Sentence) (s : State) :
    (s.touchSentence x).fill = s.fill := rfl
@[simp] theorem State.touchSentence_status (x : Sentence) (s : State) :
    (s.touchSentence x).status = s.status := rfl
@[simp] theorem State.touchSentence_csinfo (x : Sentence) (s : State) :
    (s.touchSentence x).csinfo = s.csinfo := rfl
@[simp] theorem State.touchSentence_mtype (x : Sentence) (s : State) :
    (s.touchSentence x).mtype = s.mtype := rfl
@[simp] theorem State.touchSentence_mmin (x : Sentence) (s : State) :
    (s.touchSentence x).mmin = s.mmin := rfl
@[simp] theorem State.touchSentence_mmax (x : Sentence) (s : State) :
    (s.touchSentence x).mmax = s.mmax := rfl
@[simp] theorem State.touchSentence_mvalid (x : Sentence) (s : State) :
    (s.touchSentence x).mvalid = s.mvalid := rfl
@[simp] theorem State.touchSentence_sent (x : Sentence) (s : State) :
    (s.touchSentence x).sent = x := rfl
@[simp] theorem State.touchSentence_carr (x : Sentence) (s : State) :
    (s.touchSentence x).carr = s.carr := rfl
@[simp] theorem State.touchSentence_cvalid (x : Sentence) (s : State) :
    (s.touchSentence x).cvalid = false := rfl
@[simp] theorem State.touchSentence_a (x : Sentence) (s : State) :
    (s.touchSentence x).a = s.a := rfl
@[simp] theorem State.touchSentence_afill (x : Sentence) (s : State) :
    (s.touchSentence x).afill = s.afill := rfl
@[simp] theorem State.touchSentence_aany (x : Sentence) (s : State) :
    (s.touchSentence x).aany = s.aany := rfl
@[simp] theorem State.touchSentence_aerrc (x : Sentence) (s : State) :
    (s.touchSentence x).aerrc = s.aerrc := rfl
@[simp] theorem State.touchSentence_cfg (x : Sentence) (s : State) :
    (s.touchSentence x).cfg = s.cfg := rfl
@[simp] theorem State.touchSentence_pending (x : Sentence) (s : State) :
    (s.touchSentence x).pending = s.pending := rfl

/-! ### `State.resetWith` -/

@[simp] theorem State.resetWith_val (c : Config) :
    (State.resetWith c).val = 0#64 := rfl
@[simp] theorem State.resetWith_res (c : Config) :
    (State.resetWith c).res = 0#64 := rfl
@[simp] theorem State.resetWith_b (c : Config) :
    (State.resetWith c).b = [] := rfl
@[simp] theorem State.resetWith_t (c : Config) :
    (State.resetWith c).t = [] := rfl
@[simp] theorem State.resetWith_fill (c : Config) :
    (State.resetWith c).fill = 0#3 := rfl
@[simp] theorem State.resetWith_status (c : Config) :
    (State.resetWith c).status = 0#8 := rfl
@[simp] theorem State.resetWith_csinfo (c : Config) :
    (State.resetWith c).csinfo = 0#16 := rfl
@[simp] theorem State.resetWith_mtype (c : Config) :
    (State.resetWith c).mtype = 0#6 := rfl
@[simp] theorem State.resetWith_mmin (c : Config) :
    (State.resetWith c).mmin = 0#10 := rfl
@[simp] theorem State.resetWith_mmax (c : Config) :
    (State.resetWith c).mmax = 0#10 := rfl
@[simp] theorem State.resetWith_mvalid (c : Config) :
    (State.resetWith c).mvalid = false := rfl
@[simp] theorem State.resetWith_sent (c : Config) :
    (State.resetWith c).sent = Sentence.empty := rfl
@[simp] theorem State.resetWith_carr (c : Config) :
    (State.resetWith c).carr = Carrier.zero := rfl
@[simp] theorem State.resetWith_cvalid (c : Config) :
    (State.resetWith c).cvalid = false := rfl
@[simp] theorem State.resetWith_a (c : Config) :
    (State.resetWith c).a = [] := rfl
@[simp] theorem State.resetWith_afill (c : Config) :
    (State.resetWith c).afill = 0#3 := rfl
@[simp] theorem State.resetWith_aany (c : Config) :
    (State.resetWith c).aany = false := rfl
@[simp] theorem State.resetWith_aerrc (c : Config) :
    (State.resetWith c).aerrc = 0#4 := rfl
@[simp] theorem State.resetWith_cfg (c : Config) :
    (State.resetWith c).cfg = c := rfl
@[simp] theorem State.resetWith_pending (c : Config) :
    (State.resetWith c).pending = [] := rfl

/-! ### The fields of `STATUS` and `CSINFO` -/

@[simp] theorem statusWord_err (code : BitVec 4) : (statusWord code).extractLsb' 0 4 = code := by
  revert code; decide

@[simp] theorem statusWord_busy (code : BitVec 4) : (statusWord code)[4] = false := by
  revert code; decide

@[simp] theorem statusWord_toNat (code : BitVec 4) : (statusWord code).toNat = code.toNat := by
  revert code; decide

@[simp] theorem State.setErr_err (code : BitVec 4) (s : State) : (s.setErr code).err = code := by
  simp [State.err]

@[simp] theorem State.setErr_busy (code : BitVec 4) (s : State) :
    (s.setErr code).busy = false := by
  simp [State.busy]

@[simp] theorem State.setIdle_busy (s : State) : (s.setIdle).busy = false := by
  simp [State.busy]

@[simp] theorem State.setChecksums_csRx (rx computed : Byte) (s : State) :
    (s.setChecksums rx computed).csRx = rx := by
  ext i hi
  exact (BitVec.getLsbD_extractLsb' ..).trans (by
    simp only [hi, decide_true, Bool.true_and]
    exact (BitVec.getLsbD_append (x := rx) (y := computed) (i := 8 + i)).trans (by simp [hi]))

@[simp] theorem State.setChecksums_csCalc (rx computed : Byte) (s : State) :
    (s.setChecksums rx computed).csCalc = computed := by
  ext i hi
  exact (BitVec.getLsbD_extractLsb' ..).trans (by
    simp only [hi, decide_true, Bool.true_and]
    exact (BitVec.getLsbD_append (x := rx) (y := computed) (i := 0 + i)).trans (by simp [hi]))

/-- Only the code of an error decides the status word, and the eleven codes differ. -/
theorem Err.code_inj {e e' : Err} (h : e.code = e'.code) : e = e' := by
  cases e <;> cases e' <;> first | rfl | exact absurd h (by decide)

theorem Err.code_le (e : Err) : e.code.toNat ≤ 10 := by
  cases e <;> decide

@[simp] theorem Err.code_eq_zero (e : Err) : e.code = 0#4 ↔ e = .ok := by
  cases e <;> decide

end Sys2Proof.Machine
end

