-- ==== Sys2Proof/Laws/Ops.lean ====
section
/-!
SUPPORT. How a command ends: what `raise`, `raiseCode` and `done` answer, and that the operations
that write a buffer keep the capacities (`Memory.wf`).
-/

namespace Sys2Proof.Machine

theorem raise_next {e : Err} {s t : State} : raise e s = .next t ↔ t = s.setErr e.code := by
  simp [raise, eq_comm]

theorem raiseCode_next {c : BitVec 4} {s t : State} :
    raiseCode c s = .next t ↔ t = s.setErr c := by
  simp [raiseCode, eq_comm]

theorem done_next {s t : State} : done s = .next t ↔ t = s.setErr 0#4 := by
  simp [done, Err.code, eq_comm]

/-- A command's end changes no buffer and no capacity. -/
@[simp] theorem Memory.wf_setErr (code : BitVec 4) (s : State) :
    Memory.wf (s.setErr code) ↔ Memory.wf s := Iff.rfl

theorem Memory.wf_writeB {v : Bits} {s : State} (hs : Memory.wf s) (hv : v.length ≤ s.cfg.bcap) :
    Memory.wf (s.writeB v) := ⟨hv, hs.2⟩

@[simp] theorem Memory.wf_touchCarrier (c : Carrier) (s : State) :
    Memory.wf (s.touchCarrier c) ↔ Memory.wf s := Iff.rfl

theorem Memory.wf_touchSentence {x : Sentence} {s : State} (hs : Memory.wf s)
    (hx : x.size ≤ s.cfg.tcap) : Memory.wf (s.touchSentence x) := ⟨hs.1, hs.2.1, hs.2.2.1, hx⟩

/-- Every configuration's reset state keeps the capacities. -/
theorem Memory.wf_resetWith (c : Config) : Memory.wf (State.resetWith c) := by
  simp [Memory.wf, State.resetWith, Sentence.empty, Sentence.size]

end Sys2Proof.Machine
end

