-- ==== Sys2Proof/Laws/Bits.lean ====
section
/-!
SUPPORT. The bit space: the length and the single bits of a written field, what a field reads, and
that reading and writing a field are inverse.
-/

namespace Sys2Proof.Machine

@[simp] theorem fieldBits_length {n : Nat} (w : Nat) (v : BitVec n) :
    (fieldBits w v).length = w := by
  induction w with
  | zero => rfl
  | succ w ih => simp [fieldBits, ih]

/-- Bit `i` of a stored field is bit `w - 1 - i` of the value (spec/20_memory.md R63). -/
theorem fieldBits_getElem? {n : Nat} (w : Nat) (v : BitVec n) (i : Nat) (h : i < w) :
    (fieldBits w v)[i]? = some (v.getLsbD (w - 1 - i)) := by
  induction w generalizing i with
  | zero => omega
  | succ w ih =>
    cases i with
    | zero => simp [fieldBits]
    | succ i =>
      rw [fieldBits, List.getElem?_cons_succ, ih i (by omega)]
      congr 2; omega

theorem bitsToNat_lt (b : Bits) : bitsToNat b < 2 ^ b.length := by
  induction b with
  | nil => simp [bitsToNat]
  | cons x xs ih =>
    have : x.toNat ≤ 1 := by cases x <;> simp
    simp only [bitsToNat, List.length_cons, pow_succ]
    nlinarith [Nat.two_pow_pos xs.length]

/-- A field read back is the value's low bits. -/
@[simp] theorem bitsToNat_fieldBits {n : Nat} (w : Nat) (v : BitVec n) :
    bitsToNat (fieldBits w v) = v.toNat % 2 ^ w := by
  induction w with
  | zero => simp [fieldBits, bitsToNat, Nat.mod_one]
  | succ w ih =>
    rw [fieldBits, bitsToNat, fieldBits_length, ih, Nat.mod_pow_succ, BitVec.getLsbD,
      Nat.testBit_eq_decide_div_mod_eq]
    have : v.toNat / 2 ^ w % 2 < 2 := Nat.mod_lt _ (by omega)
    by_cases h : v.toNat / 2 ^ w % 2 = 1
    · simp [h]; omega
    · have h0 : v.toNat / 2 ^ w % 2 = 0 := by omega
      simp [h0]

/-- A bit of a sequence is a binary digit of its number. -/
theorem bitsToNat_testBit (b : Bits) (j : Nat) :
    (bitsToNat b).testBit j = (decide (j < b.length) && b.getD (b.length - 1 - j) false) := by
  induction b with
  | nil => simp [bitsToNat]
  | cons x xs ih =>
    have hlt := bitsToNat_lt xs
    simp only [bitsToNat, List.length_cons]
    rw [Nat.mul_comm, Nat.testBit_two_pow_mul_add _ hlt]
    by_cases hj : j < xs.length
    · rw [if_pos hj, ih]
      have : xs.length + 1 - 1 - j = (xs.length - 1 - j) + 1 := by omega
      rw [this]
      simp [hj, show j < xs.length + 1 by omega]
    · rw [if_neg hj]
      by_cases hj' : j = xs.length
      · subst hj'; cases x <;> simp
      · have : j - xs.length = (j - xs.length - 1) + 1 := by omega
        rw [this]
        cases x <;> simp [show ¬ j < xs.length + 1 by omega, Nat.testBit_succ]

/-- A sequence is the stored form of the number it writes. -/
theorem fieldBits_bitsToNat {n : Nat} (b : Bits) (h : b.length ≤ n) :
    fieldBits b.length (BitVec.ofNat n (bitsToNat b)) = b := by
  apply List.ext_getElem?
  intro i
  by_cases hi : i < b.length
  · rw [fieldBits_getElem? _ _ _ hi, BitVec.getLsbD_ofNat, bitsToNat_testBit]
    have h1 : b.length - 1 - i < n := by omega
    have h2 : b.length - 1 - i < b.length := by omega
    have h3 : b.length - 1 - (b.length - 1 - i) = i := by omega
    simp [h1, h2, h3, hi]
  · rw [List.getElem?_eq_none (by simp; omega), List.getElem?_eq_none (by omega)]

theorem bitRead_lt (b : Bits) (off w : Nat) : bitRead b off w < 2 ^ w := by
  refine (bitsToNat_lt _).trans_le (Nat.pow_le_pow_right (by omega) ?_)
  simp

/-- A field read is the sum of `BitRead` (spec/00_scope.md R15). -/
theorem bitRead_eq_sum (b : Bits) (off w : Nat) (h : off + w ≤ b.length) :
    bitRead b off w
      = ∑ i ∈ Finset.range w, (b.getD (off + i) false).toNat * 2 ^ (w - 1 - i) := by
  induction w generalizing off with
  | zero => simp [bitRead, bitsToNat]
  | succ w ih =>
    have ho : off < b.length := by omega
    have hd : (b.drop off).take (w + 1) = b[off] :: (b.drop (off + 1)).take w := by
      rw [List.drop_eq_getElem_cons ho, List.take_succ_cons]
    have hl : ((b.drop (off + 1)).take w).length = w := by simp; omega
    rw [bitRead, hd, bitsToNat, hl, Finset.sum_range_succ']
    have ih' := ih (off + 1) (by omega)
    rw [bitRead] at ih'
    rw [ih', Nat.add_comm]
    congr 1
    · refine Finset.sum_congr rfl fun i _ => ?_
      rw [show off + 1 + i = off + (i + 1) by omega, show w + 1 - 1 - (i + 1) = w - 1 - i by omega]
    · simp [List.getElem?_eq_getElem ho]

@[simp] theorem bitWrite_length {n : Nat} (b : Bits) (off w : Nat) (v : BitVec n)
    (h : off + w ≤ b.length) : (bitWrite b off w v).length = b.length := by
  simp [bitWrite]; omega

/-- The bits of a sequence after a field is written (spec/00_scope.md R15 `BitWrite`). -/
theorem bitWrite_getElem? {n : Nat} (b : Bits) (off w : Nat) (v : BitVec n)
    (h : off + w ≤ b.length) (i : Nat) :
    (bitWrite b off w v)[i]? =
      if off ≤ i ∧ i < off + w then some (v.getLsbD (w - 1 - (i - off))) else b[i]? := by
  have ht : (b.take off).length = off := by simp; omega
  rw [bitWrite, List.append_assoc]
  by_cases h1 : i < off
  · rw [if_neg (by omega), List.getElem?_append_left (by omega), List.getElem?_take_of_lt h1]
  · rw [List.getElem?_append_right (by omega), ht]
    by_cases h2 : i < off + w
    · rw [if_pos (by omega), List.getElem?_append_left (by simp; omega),
        fieldBits_getElem? _ _ _ (by omega)]
    · rw [if_neg (by omega), List.getElem?_append_right (by simp; omega), fieldBits_length,
        List.getElem?_drop]
      congr 1; omega

/-- A field read back after it was written is the value's low bits. -/
theorem bitRead_bitWrite {n : Nat} (b : Bits) (off w : Nat) (v : BitVec n)
    (h : off + w ≤ b.length) : bitRead (bitWrite b off w v) off w = v.toNat % 2 ^ w := by
  have ht : (b.take off).length = off := by simp; omega
  rw [bitRead, bitWrite, List.append_assoc, List.drop_left' ht,
    List.take_left' (fieldBits_length w v), bitsToNat_fieldBits]

/-- Writing back what a field reads changes nothing. -/
theorem bitWrite_bitRead {n : Nat} (b : Bits) (off w : Nat) (h : off + w ≤ b.length)
    (hw : w ≤ n) : bitWrite b off w (BitVec.ofNat n (bitRead b off w)) = b := by
  have hl : ((b.drop off).take w).length = w := by simp; omega
  have hf := fieldBits_bitsToNat (n := n) ((b.drop off).take w) (by omega)
  rw [hl] at hf
  rw [bitWrite, bitRead, hf, List.append_assoc, ← List.drop_drop, List.take_append_drop,
    List.take_append_drop]

/-- The range of a two's complement number (spec/00_scope.md R14). -/
theorem toSigned_range (w u : Nat) (hw : 1 ≤ w) (hu : u < 2 ^ w) :
    -2 ^ (w - 1) ≤ toSigned w u ∧ toSigned w u < 2 ^ (w - 1) := by
  unfold toSigned
  have : (2 : Int) ^ w = 2 * 2 ^ (w - 1) := by rw [← pow_succ']; congr 1; omega
  have h2 : (2 : Nat) ^ w = 2 * 2 ^ (w - 1) := by rw [← pow_succ']; congr 1; omega
  have hp : (0 : Int) < 2 ^ (w - 1) := by positivity
  split
  · rename_i h
    refine ⟨?_, by exact_mod_cast h⟩
    have : (0 : Int) ≤ u := by omega
    linarith
  · rename_i h
    have h' : (2 : Int) ^ (w - 1) ≤ u := by exact_mod_cast (not_lt.mp h)
    have h3 : (u : Int) < 2 * 2 ^ (w - 1) := by rw [h2] at hu; exact_mod_cast hu
    rw [this]
    constructor <;> linarith

/-- A signed field of at most 64 bits keeps its number in 64 bits (spec/40_bitfield.md R144). -/
theorem toInt_ofInt_toSigned (w u : Nat) (hw : 1 ≤ w) (hw' : w ≤ 64) (hu : u < 2 ^ w) :
    (BitVec.ofInt 64 (toSigned w u)).toInt = toSigned w u := by
  obtain ⟨h1, h2⟩ := toSigned_range w u hw hu
  have : (2 : Int) ^ (w - 1) ≤ 2 ^ 63 := pow_le_pow_right₀ (by omega) (by omega)
  rw [BitVec.toInt_ofInt]
  apply Int.bmod_eq_of_le <;> norm_num <;> linarith

theorem padBits_lt (n : Nat) : padBits n < 6 := Nat.mod_lt _ (by omega)

/-- Padding makes the length a multiple of six (spec/41_armor.md R162). -/
theorem padBits_spec (n : Nat) : (n + padBits n) % 6 = 0 := by
  unfold padBits; omega

end Sys2Proof.Machine
end

