-- ==== Sys2Proof/Laws/Armor.lean ====
section
/-!
SUPPORT. The armor operations: how many characters a sequence gives and which, what a text of legal
characters decodes to bit by bit, when a text decodes to nothing, and the alphabet's inverses.
-/

namespace Sys2Proof.Machine

@[simp] theorem dec6_enc6 (v : BitVec 6) : dec6 (enc6 v) = some v := by
  revert v; decide +kernel

theorem enc6_of_dec6 {c : Byte} {v : BitVec 6} (h : dec6 c = some v) : enc6 v = c := by
  have : ∀ c : Byte, ∀ v ∈ dec6 c, enc6 v = c := by decide +kernel
  exact this c v h

theorem enc6_injective {v w : BitVec 6} (h : enc6 v = enc6 w) : v = w := by
  have := congrArg dec6 h
  simpa using this

@[simp] theorem armorGroups_length (b : Bits) : (armorGroups b).length = b.length / 6 := by
  induction b using armorGroups.induct with
  | case1 b0 b1 b2 b3 b4 b5 rest ih => simp [armorGroups, ih]; omega
  | case2 b h =>
    have : b.length < 6 := by
      match b, h with
      | [], _ | [_], _ | [_, _], _ | [_, _, _], _ | [_, _, _, _], _ | [_, _, _, _, _], _ => simp
      | a :: b :: c :: d :: e :: f :: r, h => exact absurd rfl (h a b c d e f r)
    rw [armorGroups]; simp; omega
    exact h

/-- Character `j` stands for the six bits at `6 * j` (spec/41_armor.md R162). -/
theorem armorGroups_getElem? (b : Bits) (j : Nat) (hj : 6 * j + 6 ≤ b.length) :
    (armorGroups b)[j]? = some (enc6 (BitVec.ofNat 6 (bitRead b (6 * j) 6))) := by
  induction b using armorGroups.induct generalizing j with
  | case1 b0 b1 b2 b3 b4 b5 rest ih =>
    cases j with
    | zero => simp [armorGroups, groupValue, bitRead]
    | succ j =>
      simp only [armorGroups, List.getElem?_cons_succ]
      rw [ih j (by simp at hj; omega)]
      simp [bitRead, show 6 * (j + 1) = 6 * j + 6 by ring]
  | case2 b h =>
    match b, h with
    | [], _ | [_], _ | [_, _], _ | [_, _, _], _ | [_, _, _, _], _ | [_, _, _, _, _], _ =>
      simp at hj; try omega
    | a :: b :: c :: d :: e :: f :: r, h => exact absurd rfl (h a b c d e f r)

/-- A text of legal characters decodes to six bits a character, most significant first
(spec/41_armor.md R165). -/
theorem armorBits_spec (t : Text) (h : ∀ c ∈ t, dec6 c ≠ none) :
    ∃ bits, armorBits t = some bits ∧ bits.length = 6 * t.length ∧
      ∀ i, i < bits.length → ∃ c g, t[i / 6]? = some c ∧ dec6 c = some g
        ∧ bits[i]? = some (g.getLsbD (5 - i % 6)) := by
  induction t with
  | nil => exact ⟨[], rfl, rfl, by simp⟩
  | cons c cs ih =>
    obtain ⟨bits, h1, h2, h3⟩ := ih fun x hx => h x (by simp [hx])
    obtain ⟨g, hg⟩ := Option.ne_none_iff_exists'.mp (h c (by simp))
    refine ⟨fieldBits 6 g ++ bits, by simp [armorBits, hg, h1], by simp [h2]; ring, ?_⟩
    intro i hi
    by_cases h6 : i < 6
    · refine ⟨c, g, by simp [Nat.div_eq_of_lt h6], hg, ?_⟩
      rw [List.getElem?_append_left (by simpa using h6), fieldBits_getElem? _ _ _ h6,
        Nat.mod_eq_of_lt h6]
    · simp at hi
      obtain ⟨c', g', e1, e2, e3⟩ := h3 (i - 6) (by omega)
      refine ⟨c', g', ?_, e2, ?_⟩
      · rw [show i / 6 = (i - 6) / 6 + 1 by omega, List.getElem?_cons_succ, e1]
      · rw [List.getElem?_append_right (by simp; omega), fieldBits_length, e3]
        congr 3; omega

theorem armorBits_eq_none {t : Text} (h : ∃ c ∈ t, dec6 c = none) : armorBits t = none := by
  induction t with
  | nil => simp at h
  | cons c cs ih =>
    simp only [List.mem_cons, exists_eq_or_imp] at h
    rcases h with h | h
    · simp [armorBits, h]
    · rw [armorBits, ih h]; cases dec6 c <;> rfl

/-- The characters of whole groups decode back to the groups. -/
theorem armorBits_armorGroups (b : Bits) (h : b.length % 6 = 0) :
    armorBits (armorGroups b) = some b := by
  induction b using armorGroups.induct with
  | case1 b0 b1 b2 b3 b4 b5 rest ih =>
    rw [armorGroups, armorBits, dec6_enc6, ih (by simp at h; omega)]
    have := fieldBits_bitsToNat (n := 6) [b0, b1, b2, b3, b4, b5] (by simp)
    simp at this
    simp [groupValue, this]
  | case2 b h' =>
    match b, h' with
    | [], _ => rfl
    | [_], _ | [_, _], _ | [_, _, _], _ | [_, _, _, _], _ | [_, _, _, _, _], _ => simp at h
    | a :: b :: c :: d :: e :: f :: r, h' => exact absurd rfl (h' a b c d e f r)

end Sys2Proof.Machine
end

