-- ==== Sys2Proof/Laws/Carrier.lean ====
section
/-!
SUPPORT. The grammar of the carrier fields (spec/44_fragment.md R241): for each field reader, which
strings it takes and the value it gives.
-/

namespace Sys2Proof.Machine

theorem decValue_eq_some {c : Byte} {d : Nat} :
    decValue c = some d ↔ (0x30 ≤ c.toNat ∧ c.toNat ≤ 0x39) ∧ d = c.toNat - 0x30 := by
  unfold decValue
  split_ifs with h
  · simp [h, eq_comm]
  · simp [h]

/-- Digits alone are read, and as the number they write after those already read. -/
theorem decNumber_eq_some {f : Text} {acc n : Nat} :
    decNumber acc f = some n ↔
      (∀ c ∈ f, 0x30 ≤ c.toNat ∧ c.toNat ≤ 0x39)
        ∧ n = f.foldl (fun n c => 10 * n + (c.toNat - 0x30)) acc := by
  induction f generalizing acc with
  | nil => simp [decNumber, eq_comm]
  | cons c cs ih =>
    unfold decNumber
    cases h : decValue c with
    | some d =>
      obtain ⟨hc, rfl⟩ := decValue_eq_some.mp h
      simp [ih, hc]
    | none =>
      have hc : ¬ (0x30 ≤ c.toNat ∧ c.toNat ≤ 0x39) := fun hc => by simp [decValue, hc] at h
      simp only [reduceCtorEq, List.forall_mem_cons, false_iff]
      exact fun h => hc h.1.1

theorem countField_eq_some {f : Text} {n : BitVec 8} :
    countField f = some n ↔
      (1 ≤ f.length ∧ f.length ≤ 3)
        ∧ ∃ v, decNumber 0 f = some v ∧ v ≤ 255 ∧ n.toNat = v := by
  unfold countField
  split_ifs with h
  · cases decNumber 0 f with
    | none => simp
    | some v =>
      simp only [Option.some.injEq, exists_eq_left', h, and_self, true_and]
      split_ifs with hv
      · simp only [Option.some.injEq, hv, true_and, ← BitVec.toNat_inj, BitVec.toNat_ofNat]
        omega
      · simp [hv]
  · simp [h]

theorem seqField_eq_some {f : Text} {present : Bool} {n : BitVec 4} :
    seqField f = some (present, n) ↔
      (f = [] ∧ present = false ∧ n = 0#4)
        ∨ ∃ d, f = [d] ∧ (0x30 ≤ d.toNat ∧ d.toNat ≤ 0x39) ∧ present = true
            ∧ n.toNat = d.toNat - 0x30 := by
  rcases f with _ | ⟨c, _ | ⟨d, l⟩⟩
  · simp only [seqField, Option.some.injEq, Prod.mk.injEq, true_and, List.nil_eq, reduceCtorEq,
      false_and, exists_false, or_false]
    exact and_congr eq_comm eq_comm
  · simp only [seqField, reduceCtorEq, false_and, false_or, List.cons.injEq, and_true,
      exists_eq_left']
    cases hd : decValue c with
    | some v =>
      obtain ⟨hc, rfl⟩ := decValue_eq_some.mp hd
      simp only [Option.some.injEq, Prod.mk.injEq, hc, and_self, true_and]
      refine and_congr eq_comm ?_
      rw [← BitVec.toNat_inj, BitVec.toNat_ofNat]
      omega
    | none => exact ⟨fun h => (nomatch h), fun h => by simp [decValue, h.1] at hd⟩
  · simp only [seqField, reduceCtorEq, List.cons.injEq, false_and, and_false, exists_false,
      or_false]

theorem chanField_eq_some {f : Text} {present : Bool} {chan : Byte} :
    chanField f = some (present, chan) ↔
      (f = [] ∧ present = false ∧ chan = 0#8) ∨ (f = [chan] ∧ present = true) := by
  rcases f with _ | ⟨c, _ | ⟨d, l⟩⟩
  · simp only [chanField, Option.some.injEq, Prod.mk.injEq, true_and, List.nil_eq, reduceCtorEq,
      false_and, or_false]
    exact and_congr eq_comm eq_comm
  · simp only [chanField, Option.some.injEq, Prod.mk.injEq, reduceCtorEq, false_and, false_or,
      List.cons.injEq, and_true]
    exact and_comm.trans (and_congr_right fun _ => eq_comm)
  · simp only [chanField, reduceCtorEq, List.cons.injEq, false_and, and_false, or_false]

theorem fillField_eq_some {f : Text} {n : BitVec 3} :
    fillField f = some n ↔
      ∃ d, f = [d] ∧ 0x30 ≤ d.toNat ∧ d.toNat ≤ 0x35 ∧ n.toNat = d.toNat - 0x30 := by
  rcases f with _ | ⟨c, _ | ⟨d, l⟩⟩
  · simp only [fillField, reduceCtorEq, false_and, exists_false]
  · simp only [fillField, List.cons.injEq, and_true, exists_eq_left']
    by_cases h : 0x30 ≤ c.toNat ∧ c.toNat ≤ 0x35
    · rw [if_pos h, Option.some.injEq, and_iff_right h.1, and_iff_right h.2]
      rw [← BitVec.toNat_inj, BitVec.toNat_ofNat]
      omega
    · rw [if_neg h]
      exact ⟨fun h' => (nomatch h'), fun h' => absurd ⟨h'.1, h'.2.1⟩ h⟩
  · simp only [fillField, reduceCtorEq, List.cons.injEq, false_and, and_false, exists_false]

/-- Six fields, each read by its own reader. -/
theorem carrierFields_eq_some {fields : List Text} {c : Carrier} :
    carrierFields fields = some c ↔
      ∃ f0 f1 f2 f3 f4 f5, fields = [f0, f1, f2, f3, f4, f5]
        ∧ countField f0 = some c.count ∧ countField f1 = some c.index
        ∧ seqField f2 = some (c.seqPresent, c.seq)
        ∧ chanField f3 = some (c.chanPresent, c.chan) ∧ fillField f5 = some c.fill := by
  constructor
  · intro h
    unfold carrierFields at h
    split at h
    · rename_i f0 f1 f2 f3 f4 f5
      split at h
      · rename_i h0 h1 h2 h3 h5
        injection h with h
        subst h
        exact ⟨f0, f1, f2, f3, f4, f5, rfl, h0, h1, h2, h3, h5⟩
      · cases h
    · cases h
  · rintro ⟨f0, f1, f2, f3, f4, f5, rfl, h0, h1, h2, h3, h5⟩
    simp only [carrierFields, h0, h1, h2, h3, h5]

end Sys2Proof.Machine
end

