-- ==== Sys2Proof/Laws/Decode.lean ====
section
/-!
SUPPORT. The fields of an assembled command word, and when each step of the decoder answers an
instruction.
-/

namespace Sys2Proof

/-- Bit `i` of an assembled word comes from the field that holds it (spec/30_encoding.md R91). -/
theorem assemble_getLsbD (op : BitVec 5) (kind : BitVec 2) (wid : BitVec 7) (imm : BitVec 16)
    (i : Nat) :
    (assemble op kind wid imm).getLsbD i =
      if i < 16 then imm.getLsbD i
      else if i < 18 then false
      else if i < 25 then wid.getLsbD (i - 18)
      else if i < 27 then kind.getLsbD (i - 25)
      else op.getLsbD (i - 27) := by
  refine (BitVec.getLsbD_append (x := op ++ kind ++ wid ++ 0#2) (y := imm)).trans ?_
  split
  · rfl
  refine (BitVec.getLsbD_append (x := op ++ kind ++ wid) (y := 0#2)).trans ?_
  split
  · rw [if_pos (by omega)]; simp
  rw [if_neg (by omega)]
  refine (BitVec.getLsbD_append (x := op ++ kind) (y := wid)).trans ?_
  have h1 : i - 16 - 2 = i - 18 := by omega
  rw [h1]
  split
  · rw [if_pos (by omega)]
  rw [if_neg (by omega)]
  refine (BitVec.getLsbD_append (x := op) (y := kind)).trans ?_
  have h2 : i - 18 - 7 = i - 25 := by omega
  have h3 : i - 25 - 2 = i - 27 := by omega
  rw [h2, h3]
  by_cases h : i < 27
  · rw [if_pos (by omega), if_pos h]
  · rw [if_neg (by omega), if_neg h]

/-- A command word as the rules write it: each field shifted to its place (spec/30_encoding.md
R91). -/
theorem assemble_eq_or (op : BitVec 5) (kind : BitVec 2) (wid : BitVec 7) (imm : BitVec 16) :
    assemble op kind wid imm =
      (op.setWidth 32 <<< 27 ||| kind.setWidth 32 <<< 25 ||| wid.setWidth 32 <<< 18
        ||| imm.setWidth 32) := by
  apply BitVec.eq_of_getLsbD_eq
  intro i hi
  rw [assemble_getLsbD]
  simp only [BitVec.getLsbD_or, BitVec.getLsbD_shiftLeft, BitVec.getLsbD_setWidth]
  interval_cases i <;> simp

@[simp] theorem opField_assemble (op : BitVec 5) (kind : BitVec 2) (wid : BitVec 7)
    (imm : BitVec 16) : opField (assemble op kind wid imm) = op := by
  ext i hi
  rw [opField, BitVec.getElem_extractLsb', assemble_getLsbD, if_neg (by omega), if_neg (by omega),
    if_neg (by omega), if_neg (by omega), Nat.add_sub_cancel_left, BitVec.getLsbD_eq_getElem hi]

@[simp] theorem kindField_assemble (op : BitVec 5) (kind : BitVec 2) (wid : BitVec 7)
    (imm : BitVec 16) : kindField (assemble op kind wid imm) = kind := by
  ext i hi
  rw [kindField, BitVec.getElem_extractLsb', assemble_getLsbD, if_neg (by omega),
    if_neg (by omega), if_neg (by omega), if_pos (by omega), Nat.add_sub_cancel_left,
    BitVec.getLsbD_eq_getElem hi]

@[simp] theorem widField_assemble (op : BitVec 5) (kind : BitVec 2) (wid : BitVec 7)
    (imm : BitVec 16) : widField (assemble op kind wid imm) = wid := by
  ext i hi
  rw [widField, BitVec.getElem_extractLsb', assemble_getLsbD, if_neg (by omega),
    if_neg (by omega), if_pos (by omega), Nat.add_sub_cancel_left, BitVec.getLsbD_eq_getElem hi]

@[simp] theorem rsvField_assemble (op : BitVec 5) (kind : BitVec 2) (wid : BitVec 7)
    (imm : BitVec 16) : rsvField (assemble op kind wid imm) = 0#2 := by
  ext i hi
  rw [rsvField, BitVec.getElem_extractLsb', assemble_getLsbD, if_neg (by omega),
    if_pos (by omega)]
  simp

@[simp] theorem immField_assemble (op : BitVec 5) (kind : BitVec 2) (wid : BitVec 7)
    (imm : BitVec 16) : immField (assemble op kind wid imm) = imm := by
  ext i hi
  rw [immField, BitVec.getElem_extractLsb', assemble_getLsbD, if_pos (by omega), Nat.zero_add,
    BitVec.getLsbD_eq_getElem hi]

/-- A word is the assembly of its own fields when its reserved bits are zero. -/
theorem assemble_fields (cw : Word) (h : rsvField cw = 0#2) :
    assemble (opField cw) (kindField cw) (widField cw) (immField cw) = cw := by
  have hr : ∀ j, j < 2 → cw.getLsbD (16 + j) = false := by
    intro j hj
    have := congrArg (fun x => x.getLsbD j) h
    simpa [rsvField, BitVec.getLsbD_extractLsb', hj] using this
  apply BitVec.eq_of_getLsbD_eq
  intro i hi
  rw [assemble_getLsbD]
  split
  · simp [immField, *]
  split
  · have := hr (i - 16) (by omega)
    rw [show 16 + (i - 16) = i by omega] at this
    exact this.symm
  split
  · simp only [widField, BitVec.getLsbD_extractLsb']
    rw [show 18 + (i - 18) = i by omega]; simp; omega
  split
  · simp only [kindField, BitVec.getLsbD_extractLsb']
    rw [show 25 + (i - 25) = i by omega]; simp; omega
  · simp only [opField, BitVec.getLsbD_extractLsb']
    rw [show 27 + (i - 27) = i by omega]; simp; omega

@[simp] theorem Kind.ofCode_code (k : Kind) : Kind.ofCode k.code = k := by cases k <;> rfl

@[simp] theorem Kind.code_ofCode (c : BitVec 2) : (Kind.ofCode c).code = c := by
  revert c; decide

theorem decodeFormatN_ok {i j : Instr} {cw : Word} :
    decodeFormatN i cw = .ok j ↔
      kindField cw = 0#2 ∧ widField cw = 0#7 ∧ immField cw = 0#16 ∧ i = j := by
  unfold decodeFormatN
  by_cases h : kindField cw ≠ 0#2 ∨ widField cw ≠ 0#7 ∨ immField cw ≠ 0#16
  · rw [if_pos h]; simp; tauto
  · rw [if_neg h]; simp; tauto

theorem decodeFormatF_ok {mk : Kind → BitVec 16 → BitVec 7 → Instr} {j : Instr} {cw : Word} :
    decodeFormatF mk cw = .ok j ↔
      legalWidth (widField cw) = true
        ∧ mk (Kind.ofCode (kindField cw)) (immField cw) (widField cw) = j := by
  unfold decodeFormatF
  by_cases h : legalWidth (widField cw) = false
  · rw [if_pos h]; simp [h]
  · rw [if_neg h]; simp [h]

end Sys2Proof
end

