-- ==== Sys2Proof/Laws/Text.lean ====
section
/-!
SUPPORT. Byte strings: where a delimiter is found, what a slice of a line of known shape is, that
fields joined with commas split back into themselves, the digits of a checksum, and exclusive OR.
-/

namespace Sys2Proof.Machine

/-! ### Delimiters -/

theorem indexOf_eq_none {c : Byte} {l : Text} : indexOf c l = none ↔ c ∉ l := by
  induction l with
  | nil => simp [indexOf]
  | cons x xs ih =>
    by_cases h : x = c
    · simp [indexOf, h]
    · simp [indexOf, h, ih, Ne.symm h]

/-- The first occurrence splits the string in two, the byte not in the first part. -/
theorem indexOf_eq_some {c : Byte} {l : Text} {i : Nat} :
    indexOf c l = some i ↔ ∃ pre post, l = pre ++ c :: post ∧ c ∉ pre ∧ pre.length = i := by
  induction l generalizing i with
  | nil => simp [indexOf]
  | cons x xs ih =>
    by_cases h : x = c
    · subst h
      simp only [indexOf, if_true, Option.some.injEq]
      constructor
      · rintro rfl; exact ⟨[], xs, rfl, by simp, rfl⟩
      · rintro ⟨pre, post, he, hn, rfl⟩
        cases pre with
        | nil => rfl
        | cons y ys => simp at he; simp [he.1] at hn
    · simp only [indexOf, h, if_false, Option.map_eq_some_iff]
      constructor
      · rintro ⟨j, hj, rfl⟩
        obtain ⟨pre, post, rfl, hn, rfl⟩ := ih.mp hj
        exact ⟨x :: pre, post, rfl, by simp [hn, Ne.symm h], rfl⟩
      · rintro ⟨pre, post, he, hn, rfl⟩
        cases pre with
        | nil => simp at he; exact absurd he.1 h
        | cons y ys =>
          simp at he hn
          exact ⟨ys.length, ih.mpr ⟨ys, post, he.2, hn.2, rfl⟩, rfl⟩

theorem indexOf_append {c : Byte} {pre : Text} (post : Text) (h : c ∉ pre) :
    indexOf c (pre ++ c :: post) = some pre.length :=
  indexOf_eq_some.mpr ⟨pre, post, rfl, h, rfl⟩

@[simp] theorem slice_cons_one (x : Byte) (l : Text) (hi : Nat) :
    slice (x :: l) 1 (hi + 1) = l.take hi := by simp [slice]

/-! ### Fields and commas -/

@[simp] theorem fieldsText_length (fs : List Text) :
    (fieldsText fs).length = (fs.map List.length).sum + fs.length := by
  induction fs with
  | nil => rfl
  | cons f fs ih => simp [fieldsText, ih]; omega

theorem fieldsText_ne_nil {fs : List Text} (h : fs ≠ []) :
    ∃ rest, fieldsText fs = Ascii.comma :: rest := by
  cases fs with
  | nil => exact absurd rfl h
  | cons f fs => exact ⟨_, rfl⟩

theorem split_ne_nil (c : Byte) (l : Text) : split c l ≠ [] := by
  cases l with
  | nil => simp [split]
  | cons x xs =>
    unfold split
    split
    · simp
    · cases split c xs <;> simp

theorem split_of_not_mem {c : Byte} {l : Text} (h : c ∉ l) : split c l = [l] := by
  induction l with
  | nil => rfl
  | cons x xs ih =>
    simp only [List.mem_cons, not_or] at h
    simp [split, Ne.symm h.1, ih h.2]

theorem split_append {c : Byte} {l : Text} (rest : Text) (h : c ∉ l) :
    split c (l ++ c :: rest) = l :: split c rest := by
  induction l with
  | nil => simp [split]
  | cons x xs ih =>
    simp only [List.mem_cons, not_or] at h
    simp [split, Ne.symm h.1, ih h.2]

/-- Fields without commas, each after a comma, split back into themselves. -/
theorem split_fieldsText {f : Text} {fs : List Text}
    (h : ∀ x ∈ f :: fs, Ascii.comma ∉ x) :
    split Ascii.comma (f ++ fieldsText fs) = f :: fs := by
  induction fs generalizing f with
  | nil => simpa [fieldsText] using split_of_not_mem (h f (by simp))
  | cons g gs ih =>
    rw [fieldsText, split_append _ (h f (by simp)), ih fun x hx => h x (by simp [hx])]

/-- No piece of a split holds the byte split at. -/
theorem not_mem_of_mem_split {c : Byte} {l : Text} : ∀ x ∈ split c l, c ∉ x := by
  induction l with
  | nil => simp [split]
  | cons y ys ih =>
    unfold split
    split
    · intro x hx
      simp only [List.mem_cons] at hx
      rcases hx with rfl | hx
      · simp
      · exact ih x hx
    · rename_i hne
      cases hs : split c ys with
      | nil => intro x hx; simp at hx; subst hx; simpa using Ne.symm hne
      | cons p ps =>
        rw [hs] at ih
        intro x hx
        simp only [List.mem_cons] at hx
        rcases hx with rfl | hx
        · simp [Ne.symm hne, ih p (by simp)]
        · exact ih x (by simp [hx])

/-- Splitting and joining again gives the string back. -/
theorem fieldsText_split (l : Text) :
    fieldsText (split Ascii.comma l) = Ascii.comma :: l := by
  induction l with
  | nil => rfl
  | cons x xs ih =>
    unfold split
    split
    · rename_i h; simp [fieldsText, ih, h]
    · cases hs : split Ascii.comma xs with
      | nil => exact absurd hs (split_ne_nil _ _)
      | cons p ps =>
        rw [hs, fieldsText] at ih
        simp only [List.cons.injEq, true_and] at ih
        simp [fieldsText, ih]

theorem mem_of_mem_fieldsText {c : Byte} {fs : List Text} (h : c ∈ fieldsText fs) :
    c = Ascii.comma ∨ ∃ f ∈ fs, c ∈ f := by
  induction fs with
  | nil => simp [fieldsText] at h
  | cons f fs ih =>
    simp only [fieldsText, List.mem_cons, List.mem_append] at h
    rcases h with h | h | h
    · exact .inl h
    · exact .inr ⟨f, by simp, h⟩
    · rcases ih h with h | ⟨g, hg, hc⟩
      · exact .inl h
      · exact .inr ⟨g, by simp [hg], hc⟩

theorem plainText_iff {x : Text} :
    plainText x = true ↔ Ascii.comma ∉ x ∧ Ascii.star ∉ x := by
  simp only [plainText, List.all_eq_true, Bool.and_eq_true, decide_eq_true_eq, ne_eq]
  constructor
  · exact fun h => ⟨fun hm => (h _ hm).1 rfl, fun hm => (h _ hm).2 rfl⟩
  · exact fun h c hc => ⟨fun he => h.1 (he ▸ hc), fun he => h.2 (he ▸ hc)⟩

/-! ### Checksums -/

@[simp] theorem xor8_append (x y : Text) : xor8 (x ++ y) = xor8 x ^^^ xor8 y := by
  induction x with
  | nil => simp [xor8]
  | cons c x ih => simp [xor8, ih, BitVec.xor_assoc]

/-- A digit the renderer writes is the digit the parser reads (spec/43_nmea.md R203). -/
@[simp] theorem hexValue_hexDigit (d : BitVec 4) : hexValue (hexDigit d) = some d := by
  revert d; decide

/-- Only the upper-case digit has a value (spec/43_nmea.md R203). -/
theorem hexDigit_of_hexValue {c : Byte} {d : BitVec 4} (h : hexValue c = some d) :
    hexDigit d = c := by
  have : ∀ c : Byte, ∀ d ∈ hexValue c, hexDigit d = c := by decide +kernel
  exact this c d h

end Sys2Proof.Machine
end

