-- ==== Sys2Proof/Laws/Nmea.lean ====
section
/-!
SUPPORT. The sentence envelope: what a parse answers on a line cut at its first delimiter, what the
span gives as address and fields, and which sentences a parse can deliver.
-/

namespace Sys2Proof.Machine

/-- A line cut at its first delimiter: start token, span, `'*'`, window. -/
theorem find_star {start : Byte} {span window : Text} (h : Ascii.star ∉ span) :
    find (start :: (span ++ Ascii.star :: window)) Ascii.star 1
      (start :: (span ++ Ascii.star :: window)).length = some (span.length + 1) := by
  rw [find, List.length_cons, slice_cons_one, List.take_length, indexOf_append _ h]
  rfl

/-- No delimiter at index 1 or later. -/
theorem find_star_none {start : Byte} {rest : Text} (h : Ascii.star ∉ rest) :
    find (start :: rest) Ascii.star 1 (start :: rest).length = none := by
  rw [find, List.length_cons, slice_cons_one, List.take_length, indexOf_eq_none.mpr h]
  rfl

/-- The window of a line cut at its first delimiter (spec/43_nmea.md R206). -/
theorem checksumWindow_cut {start : Byte} {span window : Text} (h : Ascii.star ∉ span) :
    checksumWindow (start :: (span ++ Ascii.star :: window)) =
      match window with
      | [a, b] =>
        match hexValue a, hexValue b with
        | some hi, some lo => some (span.length + 1, hi ++ lo)
        | _, _ => none
      | _ => none := by
  unfold checksumWindow
  rw [find_star h]
  have hlen : (start :: (span ++ Ascii.star :: window)).length - (span.length + 1) - 1
      = window.length := by simp
  simp only [hlen]
  match window with
  | [] => rfl
  | [_] => rfl
  | _ :: _ :: _ :: _ => simp
  | [a, b] =>
    have h1 : (start :: (span ++ [Ascii.star, a, b])).getD (span.length + 1 + 1) 0#8 = a := by
      simp
    have h2 : (start :: (span ++ [Ascii.star, a, b])).getD (span.length + 1 + 2) 0#8 = b := by
      simp
    simp only [h1, h2, List.length_cons, List.length_nil]
    cases hexValue a <;> cases hexValue b <;> rfl

/-- A span without a comma is all address and has no field (spec/43_nmea.md R208, R210). -/
theorem parseSpan_bare {cfg : Config} {start : Byte} {span rest : Text}
    (h : Ascii.comma ∉ span) :
    parseSpan cfg (start :: (span ++ rest)) start (span.length + 1) =
      match splitAddress span with
      | none => .error (.plain .format)
      | some (talker, tag) =>
        match checkTag cfg tag [] with
        | .error e => .error (.plain e)
        | .ok carr => .ok ⟨⟨start, talker, tag, []⟩, carr⟩ := by
  have h1 : addressEnd (start :: (span ++ rest)) (span.length + 1) = span.length + 1 := by
    rw [addressEnd, find, slice_cons_one, List.take_left, indexOf_eq_none.mpr h]
    rfl
  rw [parseSpan, h1, slice_cons_one, List.take_left]
  simp only [spanFields, if_true]
  all_goals rfl

/-- A span with a comma: the address before the first one, the fields after it
(spec/43_nmea.md R208, R210). -/
theorem parseSpan_comma {cfg : Config} {start : Byte} {addr body rest : Text}
    (h : Ascii.comma ∉ addr) :
    parseSpan cfg (start :: (addr ++ Ascii.comma :: body ++ rest)) start
        ((addr ++ Ascii.comma :: body).length + 1) =
      match splitAddress addr with
      | none => .error (.plain .format)
      | some (talker, tag) =>
        match checkTag cfg tag (split Ascii.comma body) with
        | .error e => .error (.plain e)
        | .ok carr => .ok ⟨⟨start, talker, tag, split Ascii.comma body⟩, carr⟩ := by
  have h1 : addressEnd (start :: (addr ++ Ascii.comma :: body ++ rest))
      ((addr ++ Ascii.comma :: body).length + 1) = addr.length + 1 := by
    rw [addressEnd, find, slice_cons_one, List.take_left, indexOf_append _ h]
    rfl
  have h2 : spanFields (start :: (addr ++ Ascii.comma :: body ++ rest)) (addr.length + 1)
      ((addr ++ Ascii.comma :: body).length + 1) = split Ascii.comma body := by
    rw [spanFields, if_neg (by simp)]
    congr 1
    rw [slice, List.take_succ_cons, List.take_left, List.drop_succ_cons]
    rw [show addr.length + 1 = (addr ++ [Ascii.comma]).length by simp,
      show addr ++ Ascii.comma :: body = (addr ++ [Ascii.comma]) ++ body by simp, List.drop_left]
  rw [parseSpan, h1, h2, slice_cons_one, List.append_assoc, List.take_left]
  all_goals rfl

/-- A parse of a line cut at its first delimiter, its window two digits
(spec/43_nmea.md R204 steps 1 to 6). -/
theorem parseLine_cut {cfg : Config} {start a b : Byte} {span : Text} {hi lo : BitVec 4}
    (hs : isStartToken start = true) (h : Ascii.star ∉ span)
    (ha : hexValue a = some hi) (hb : hexValue b = some lo) :
    parseLine cfg (start :: (span ++ [Ascii.star, a, b])) =
      if hi ++ lo ≠ xor8 span then .error (.checksum (hi ++ lo) (xor8 span))
      else parseSpan cfg (start :: (span ++ [Ascii.star, a, b])) start (span.length + 1) := by
  have hw := checksumWindow_cut (start := start) (window := [a, b]) h
  simp only [ha, hb] at hw
  have hx : slice (start :: (span ++ [Ascii.star, a, b])) 1 (span.length + 1) = span := by
    rw [slice_cons_one, List.take_left]
  simp only [parseLine, List.head?_cons, hs, Bool.true_eq_false, if_false, hw, hx]

/-- A line whose window is not two digits is refused (spec/43_nmea.md R206). -/
theorem parseLine_bad_window {cfg : Config} {start : Byte} {rest : Text}
    (hs : isStartToken start = true) (h : checksumWindow (start :: rest) = none) :
    parseLine cfg (start :: rest) = .error (.plain .format) := by
  simp [parseLine, hs, h]

theorem mem_fieldsText_of_mem {c : Byte} {f : Text} {fs : List Text} (hf : f ∈ fs) (hc : c ∈ f) :
    c ∈ fieldsText fs := by
  induction fs with
  | nil => simp at hf
  | cons g gs ih =>
    simp only [List.mem_cons] at hf
    simp only [fieldsText, List.mem_cons, List.mem_append]
    rcases hf with rfl | hf
    · exact .inr (.inl hc)
    · exact .inr (.inr (ih hf))

/-- A string either lacks a byte or is cut at its first occurrence. -/
theorem cut_at (c : Byte) (l : Text) : c ∉ l ∨ ∃ pre post, l = pre ++ c :: post ∧ c ∉ pre := by
  cases h : indexOf c l with
  | none => exact .inl (indexOf_eq_none.mp h)
  | some i =>
    obtain ⟨pre, post, he, hn, -⟩ := indexOf_eq_some.mp h
    exact .inr ⟨pre, post, he, hn⟩

/-- An address gives a talker and a tag that render (spec/43_nmea.md R208, R216). -/
theorem splitAddress_some {addr talker tag : Text} :
    splitAddress addr = some (talker, tag) ↔
      addr = talker ++ tag ∧ addressRenders talker tag = true := by
  unfold splitAddress addressRenders
  constructor
  · intro h
    split_ifs at h with h1 h2
    · cases h; simp [h1]
    · cases h
      have : (addr.take 2).length = 2 := by simp; omega
      refine ⟨(List.take_append_drop 2 addr).symm, ?_⟩
      rw [if_neg (by omega), if_pos this]
      have h3 : (addr.take 2).head? = addr.head? := by
        match addr with
        | [] => simp at h2
        | _ :: _ => simp
      simp [h2]
      rintro he
      exact h1 (h3 ▸ he)
  · rintro ⟨rfl, h⟩
    split_ifs at h with h1 h2
    · have : talker = [] := List.eq_nil_of_length_eq_zero h1
      subst this
      simp at h
      simp [h]
    · match talker, h2 with
      | [x, y], _ =>
        simp at h
        simp [h]

/-- A sentence none of whose components holds a delimiter (spec/43_nmea.md R216 step 3). -/
abbrev Sentence.plain (x : Sentence) : Prop :=
  plainText x.talker = true ∧ plainText x.tag = true ∧ ∀ f ∈ x.fields, plainText f = true

theorem star_not_mem_lineBody {x : Sentence} (h : x.plain) : Ascii.star ∉ lineBody x := by
  obtain ⟨h1, h2, h3⟩ := h
  intro hm
  simp only [lineBody, List.mem_append] at hm
  rcases hm with (hm | hm) | hm
  · exact (plainText_iff.mp h1).2 hm
  · exact (plainText_iff.mp h2).2 hm
  · rcases mem_of_mem_fieldsText hm with hm | ⟨f, hf, hm⟩
    · exact absurd hm (by decide)
    · exact (plainText_iff.mp (h3 f hf)).2 hm

/-- A parse of the line of a plain sentence comes to the registry with its components
(spec/43_nmea.md R204). -/
theorem parseLine_lineText {cfg : Config} {x : Sentence} (hs : isStartToken x.start = true)
    (ha : addressRenders x.talker x.tag = true) (hp : x.plain) :
    parseLine cfg (lineText x.start (lineBody x)) =
      match checkTag cfg x.tag x.fields with
      | .error e => .error (.plain e)
      | .ok carr => .ok ⟨x, carr⟩ := by
  have hx : (xor8 (lineBody x)).extractLsb' 4 4 ++ (xor8 (lineBody x)).extractLsb' 0 4
      = xor8 (lineBody x) := by
    generalize xor8 (lineBody x) = v
    revert v; decide +kernel
  rw [lineText, hex2, parseLine_cut hs (star_not_mem_lineBody hp) (hexValue_hexDigit _)
    (hexValue_hexDigit _), if_neg (by simp [hx])]
  have hsplit := splitAddress_some.mpr ⟨rfl, ha⟩
  have hcomma : Ascii.comma ∉ x.talker ++ x.tag := by
    simp only [List.mem_append, not_or]
    exact ⟨(plainText_iff.mp hp.1).1, (plainText_iff.mp hp.2.1).1⟩
  obtain ⟨start, talker, tag, fields⟩ := x
  cases fields with
  | nil =>
    have hb : lineBody ⟨start, talker, tag, []⟩ = talker ++ tag := by simp [lineBody, fieldsText]
    rw [hb, parseSpan_bare hcomma, hsplit]
  | cons f fs =>
    have hb : lineBody ⟨start, talker, tag, f :: fs⟩
        = talker ++ tag ++ Ascii.comma :: (f ++ fieldsText fs) := rfl
    rw [hb, parseSpan_comma hcomma, hsplit,
      split_fieldsText fun y hy => (plainText_iff.mp (hp.2.2 y hy)).1]

/-- The digits a parse accepts are the digits a render writes (spec/43_nmea.md R203). -/
theorem hex2_of_hexValue {a b : Byte} {hi lo : BitVec 4} (ha : hexValue a = some hi)
    (hb : hexValue b = some lo) : hex2 (hi ++ lo) = [a, b] := by
  have h1 : ∀ hi lo : BitVec 4, (hi ++ lo).extractLsb' 4 4 = hi := by decide +kernel
  have h2 : ∀ hi lo : BitVec 4, (hi ++ lo).extractLsb' 0 4 = lo := by decide +kernel
  rw [hex2, h1, h2, hexDigit_of_hexValue ha, hexDigit_of_hexValue hb]

/-- The shape of every line a parse accepts before it looks at the span: start token, a span
without the delimiter, the delimiter, two digits (spec/43_nmea.md R204 steps 1 to 5). -/
theorem parseLine_shape {cfg : Config} {t : Text} (h : parseLine cfg t ≠ .error (.plain .format)) :
    ∃ start span a b hi lo, t = start :: (span ++ [Ascii.star, a, b]) ∧ isStartToken start = true
      ∧ Ascii.star ∉ span ∧ hexValue a = some hi ∧ hexValue b = some lo := by
  match t with
  | [] => exact absurd rfl h
  | start :: rest =>
    by_cases hs : isStartToken start = true
    · rcases cut_at Ascii.star rest with hn | ⟨span, window, rfl, hn⟩
      · exact absurd (parseLine_bad_window hs (by rw [checksumWindow, find_star_none hn])) h
      · have hw := checksumWindow_cut (start := start) (window := window) hn
        match window with
        | [a, b] =>
          cases ha : hexValue a with
          | none => exact absurd (parseLine_bad_window hs (by rw [hw]; simp [ha])) h
          | some hi =>
            cases hb : hexValue b with
            | none => exact absurd (parseLine_bad_window hs (by rw [hw]; simp [ha, hb])) h
            | some lo => exact ⟨start, span, a, b, hi, lo, rfl, hs, hn, ha, hb⟩
        | [] => exact absurd (parseLine_bad_window hs hw) h
        | [_] => exact absurd (parseLine_bad_window hs hw) h
        | _ :: _ :: _ :: _ => exact absurd (parseLine_bad_window hs hw) h
    · exact absurd (by simp [parseLine, hs]) h

/-- What a parse delivers and from which line: exactly the line of the delivered sentence, its
components renderable, its tag and fields as the registry wants them (spec/43_nmea.md R204). -/
theorem parseLine_ok {cfg : Config} {t : Text} {x : Sentence} {carr : Option Carrier} :
    parseLine cfg t = .ok ⟨x, carr⟩ ↔
      isStartToken x.start = true ∧ addressRenders x.talker x.tag = true ∧ x.plain
        ∧ checkTag cfg x.tag x.fields = .ok carr ∧ t = lineText x.start (lineBody x) := by
  constructor
  · intro h
    obtain ⟨start, span, a, b, hi, lo, rfl, hs, hn, ha, hb⟩ :=
      parseLine_shape (cfg := cfg) (t := t) (by rw [h]; simp)
    rw [parseLine_cut hs hn ha hb] at h
    split_ifs at h with hx
    push Not at hx
    have hline : start :: (span ++ [Ascii.star, a, b]) = lineText start span := by
      rw [lineText, ← hx, hex2_of_hexValue ha hb]
    rcases cut_at Ascii.comma span with hc | ⟨addr, body, rfl, hc⟩
    · rw [parseSpan_bare hc] at h
      cases hsp : splitAddress span with
      | none => simp [hsp] at h
      | some p =>
        obtain ⟨talker, tag⟩ := p
        obtain ⟨rfl, har⟩ := splitAddress_some.mp hsp
        cases hct : checkTag cfg tag [] with
        | error e => simp [hsp, hct] at h
        | ok c =>
          simp only [hsp, hct, Except.ok.injEq, Parsed.mk.injEq] at h
          obtain ⟨rfl, rfl⟩ := h
          simp only [List.mem_append, not_or] at hc hn
          refine ⟨hs, har, ⟨plainText_iff.mpr ⟨hc.1, hn.1⟩, plainText_iff.mpr ⟨hc.2, hn.2⟩,
            by simp⟩, hct, ?_⟩
          rw [hline]; simp [lineBody, fieldsText]
    · rw [parseSpan_comma hc] at h
      cases hsp : splitAddress addr with
      | none => simp [hsp] at h
      | some p =>
        obtain ⟨talker, tag⟩ := p
        obtain ⟨rfl, har⟩ := splitAddress_some.mp hsp
        cases hct : checkTag cfg tag (split Ascii.comma body) with
        | error e => simp [hsp, hct] at h
        | ok c =>
          simp only [hsp, hct, Except.ok.injEq, Parsed.mk.injEq] at h
          obtain ⟨rfl, rfl⟩ := h
          simp only [List.mem_append, List.mem_cons, not_or] at hc hn
          refine ⟨hs, har, ⟨plainText_iff.mpr ⟨hc.1, hn.1.1⟩, plainText_iff.mpr ⟨hc.2, hn.1.2⟩,
            fun f hf => plainText_iff.mpr ⟨not_mem_of_mem_split f hf, fun hm => hn.2.2 ?_⟩⟩,
            hct, ?_⟩
          · have : Ascii.star ∈ fieldsText (split Ascii.comma body) :=
              mem_fieldsText_of_mem hf hm
            rw [fieldsText_split] at this
            exact (List.mem_cons.mp this).resolve_left (by decide)
          · rw [hline]; simp [lineBody, fieldsText_split]
  · rintro ⟨hs, ha, hp, hc, rfl⟩
    rw [parseLine_lineText hs ha hp, hc]

/-- A parse only copies substrings of the line, so what it delivers is no longer than the line
(spec/10_state.md R37). -/
theorem parseLine_size {cfg : Config} {t : Text} {x : Sentence} {carr : Option Carrier}
    (h : parseLine cfg t = .ok ⟨x, carr⟩) : x.size ≤ t.length := by
  obtain ⟨_, _, _, _, rfl⟩ := parseLine_ok.mp h
  simp [Sentence.size, lineText, lineBody]; omega

/-- What a render writes and from which registers: exactly what a parse of the line delivers, and
a line that fits (spec/43_nmea.md R216). -/
theorem renderLine_ok {cfg : Config} {x : Sentence} {line : Text} :
    renderLine cfg x = .ok line ↔
      isStartToken x.start = true ∧ addressRenders x.talker x.tag = true ∧ x.plain
        ∧ (∃ carr, checkTag cfg x.tag x.fields = .ok carr)
        ∧ 1 + (lineBody x).length + 3 ≤ cfg.tcap ∧ line = lineText x.start (lineBody x) := by
  have hp : (plainText x.talker && plainText x.tag && x.fields.all plainText) = true ↔ x.plain := by
    simp [and_assoc]
  unfold renderLine
  constructor
  · intro h
    cases hc : checkTag cfg x.tag x.fields with
    | error e => rw [hc] at h; split_ifs at h
    | ok carr =>
      rw [hc] at h
      simp only at h
      split_ifs at h with h1 h2 h3 h4
      exact ⟨by simpa using h1, by simpa using h2, hp.mp (Bool.eq_true_of_not_eq_false h3), ⟨carr, rfl⟩,
        not_lt.mp h4, (Except.ok.inj h).symm⟩
  · rintro ⟨h1, h2, h3, ⟨carr, hc⟩, h4, rfl⟩
    rw [if_neg (by simp [h1]), if_neg (by simp [h2]), if_neg (by simp [hp.mpr h3]), hc]
    simp only [if_neg (not_lt.mpr h4)]

/-- Steps 9 and 10 end well exactly for a registered tag with its number of fields, a carrier
tag's fields decoded (spec/43_nmea.md R211, R212). -/
theorem checkTag_ok {cfg : Config} {tag : Text} {fields : List Text} {carr : Option Carrier} :
    checkTag cfg tag fields = .ok carr ↔
      cfg.tagReg tag = some fields.length ∧
        (cfg.isCarrier tag = true ∧ (∃ c, carrierFields fields = some c ∧ carr = some c)
          ∨ cfg.isCarrier tag = false ∧ carr = none) := by
  unfold checkTag
  cases ht : cfg.tagReg tag with
  | none => simp
  | some n =>
    by_cases hn : fields.length = n
    · cases hc : cfg.isCarrier tag
      · simp [hn, eq_comm]
      · cases hf : carrierFields fields <;> simp [hn, eq_comm]
    · simp [hn, Ne.symm hn]

/-! ### No error path ends `OK` -/

theorem checkTag_ne_ok {c : Config} {tag fs} (h : checkTag c tag fs = .error .ok) : False := by
  unfold checkTag at h
  cases hh : c.tagReg tag with
  | none => simp [hh] at h
  | some n =>
    simp only [hh] at h
    split_ifs at h
    · cases h
    · cases hf : carrierFields fs <;> simp [hf] at h

theorem parseLine_ne_plain_ok {c t} (h1 : parseLine c t = .error (.plain .ok)) : False := by
  obtain ⟨start, span, a, b, hi, lo, ht, hs, hn, ha, hb⟩ :=
    parseLine_shape (cfg := c) (t := t) (by rw [h1]; simp)
  rw [ht, parseLine_cut hs hn ha hb] at h1
  split_ifs at h1
  · cases h1
  unfold parseSpan at h1
  split at h1
  · simp at h1
  · split at h1
    · rename_i hct
      simp at h1; subst h1; exact checkTag_ne_ok hct
    · simp at h1

theorem renderLine_ne_ok {c x} (hr : renderLine c x = .error .ok) : False := by
  unfold renderLine at hr
  split_ifs at hr <;> try contradiction
  all_goals (
    cases hct : checkTag c x.tag x.fields with
    | ok c => rw [hct] at hr; simp at hr
    | error e => rw [hct] at hr; simp at hr; subst hr; exact checkTag_ne_ok hct)

end Sys2Proof.Machine
end

