-- ==== Sys2Proof/Laws/Exec.lean ====
section
/-!
SUPPORT. What a command can do, said once: the ways it ends (`CommandEnd`), that it always ends in
a next state, and what a step can do around it. A claim over every instruction or every step is a
case analysis over these.
-/

namespace Sys2Proof.Machine

/-- The ways a command ends: for each command its errors and its success, with every element it
writes. `CommandEnd s i t` holds exactly when `exec i s` can answer `t` on the facts shown. -/
inductive CommandEnd (s : State) : Instr → State → Prop
  /-- An error that writes `STATUS` alone. -/
  | raised (i : Instr) (e : Err) (h : i ≠ .nmeaParse) (h2 : i ≠ .aisDispatch)
      (h3 : i ≠ .fragAdd) (he : e ≠ Err.ok) : CommandEnd s i (s.setErr e.code)
  | init (n : BitVec 16) (h : n.toNat ≤ s.cfg.bcap) :
      CommandEnd s (.bfInit n) ((s.writeB (List.replicate n.toNat false)).setErr 0#4)
  | append (k : Kind) (w : BitVec 7) (h : s.b.length + w.toNat ≤ s.cfg.bcap) :
      CommandEnd s (.bfAppend k w)
        ((s.writeB (s.b ++ fieldBits w.toNat (fieldValue k s.val))).setErr 0#4)
  | pack (k : Kind) (o : BitVec 16) (w : BitVec 7) (h : o.toNat + w.toNat ≤ s.b.length) :
      CommandEnd s (.bfPack k o w)
        ((s.writeB (bitWrite s.b o.toNat w.toNat (fieldValue k s.val))).setErr 0#4)
  | unpack (k : Kind) (o : BitVec 16) (w : BitVec 7) (v : BitVec 64) :
      CommandEnd s (.bfUnpack k o w) ({ s with res := v }.setErr 0#4)
  | encoded (t : Text) (f : BitVec 3) (h : t.length ≤ s.cfg.tcap) :
      CommandEnd s .armEnc ({ s with t := t, fill := f }.setErr 0#4)
  | decoded (v : Bits) (h : v.length ≤ s.cfg.bcap) :
      CommandEnd s .armDec ((s.writeB v).setErr 0#4)
  | tooShort : CommandEnd s .aisDispatch ({ s with mvalid := false }.setErr 7#4)
  | unknownType (tid : BitVec 6) :
      CommandEnd s .aisDispatch ({ s with mvalid := false, mtype := tid }.setErr 4#4)
  | wrongSize (tid : BitVec 6) (lo hi : BitVec 10) :
      CommandEnd s .aisDispatch
        ({ s with mvalid := false, mtype := tid, mmin := lo, mmax := hi }.setErr 5#4)
  | dispatched (r : SizeRange) (h : 6 ≤ s.b.length) (hm : s.cfg.msgReg (typeId s.b) = some r)
      (h2 : r.min.toNat ≤ s.b.length) (h3 : s.b.length ≤ r.max.toNat) :
      CommandEnd s .aisDispatch
        ({ s with mvalid := true, mtype := typeId s.b, mmin := r.min, mmax := r.max }.setErr 0#4)
  | cast (id : BitVec 6) (v : BitVec 64) :
      CommandEnd s (.aisCast id) ({ s with res := v }.setErr 0#4)
  | parsed (x : Sentence) (hx : x.size ≤ s.t.length) :
      CommandEnd s .nmeaParse ({ s with sent := x, cvalid := false }.setErr 0#4)
  | parsedCarrier (x : Sentence) (c : Carrier) (h : s.cfg.isCarrier x.tag = true)
      (h2 : carrierFields x.fields = some c) (hx : x.size ≤ s.t.length) :
      CommandEnd s .nmeaParse ({ s with sent := x, carr := c, cvalid := true }.setErr 0#4)
  | unparsed (e : Err) (h : e ≠ Err.ok) :
      CommandEnd s .nmeaParse ({ s with cvalid := false }.setErr e.code)
  | wrongChecksum (v : BitVec 16) :
      CommandEnd s .nmeaParse ({ s with csinfo := v, cvalid := false }.setErr 2#4)
  | rendered (t : Text) (h : t.length ≤ s.cfg.tcap) :
      CommandEnd s .nmeaRender ({ s with t := t }.setErr 0#4)
  | begun : CommandEnd s .fragBegin
      ({ s with a := [], afill := 0#3, aany := false, aerrc := 0#4 }.setErr 0#4)
  | stillFailed (h : s.aerrc ≠ 0#4) : CommandEnd s .fragAdd (s.setErr s.aerrc)
  | notAdded (e : Err) (h : e = .notCarrier ∨ e = .capacity) :
      CommandEnd s .fragAdd ({ s with aerrc := e.code }.setErr e.code)
  | added (p : Text) (h : s.a.length + p.length ≤ s.cfg.tcap) (h2 : s.cvalid = true)
      (h3 : s.aerrc = 0#4) :
      CommandEnd s .fragAdd
        ({ s with a := s.a ++ p, afill := s.carr.fill, aany := true }.setErr 0#4)
  | failedEnd (h : s.aerrc ≠ 0#4) : CommandEnd s .fragEnd (s.setErr s.aerrc)
  | delivered : CommandEnd s .fragEnd ({ s with t := s.a, fill := s.afill }.setErr 0#4)
  | formed (x : Sentence) (hx : x.size ≤ s.cfg.tcap) :
      CommandEnd s .fragForm ((s.touchSentence x).setErr 0#4)

/-- Every command ends in one of those ways: what `exec` can do, said once. -/
theorem exec_end {i : Instr} {s t : State} (h : exec i s = .next t) : CommandEnd s i t := by
  cases i <;> simp only [exec] at h
  case bfInit n =>
    unfold execBfInit at h; split_ifs at h with h1 <;> injection h with h <;> subst h
    · exact .raised _ .capacity (by simp) (by simp) (by simp) (by simp)
    · exact .init n (by omega)
  case bfAppend k w =>
    unfold execBfAppend at h; split_ifs at h with h1 <;> injection h with h <;> subst h
    · exact .raised _ .capacity (by simp) (by simp) (by simp) (by simp)
    · exact .append k w (by omega)
  case bfPack k o w =>
    unfold execBfPack at h; split_ifs at h with h1 <;> injection h with h <;> subst h
    · exact .raised _ .bounds (by simp) (by simp) (by simp) (by simp)
    · exact .pack k o w (by omega)
  case bfUnpack k o w =>
    unfold execBfUnpack at h; split_ifs at h with h1 <;> injection h with h <;> subst h
    · exact .raised _ .bounds (by simp) (by simp) (by simp) (by simp)
    · exact .unpack k o w _
  case armEnc =>
    unfold execArmEnc at h; split_ifs at h with h1 <;> injection h with h <;> subst h
    · exact .raised _ .capacity (by simp) (by simp) (by simp) (by simp)
    · exact .encoded _ _ (by simp [armorText]; omega)
  case armDec =>
    unfold execArmDec at h
    split_ifs at h with h1 h2 h3
    · injection h with h; subst h
      exact .raised _ .valueRange (by simp) (by simp) (by simp) (by simp)
    · injection h with h; subst h
      exact .raised _ .capacity (by simp) (by simp) (by simp) (by simp)
    · split at h <;> injection h with h <;> subst h <;>
        exact .raised _ .format (by simp) (by simp) (by simp) (by simp)
    · split at h <;> injection h with h <;> subst h
      · exact .raised _ .format (by simp) (by simp) (by simp) (by simp)
      · exact .decoded _ (by simp; omega)
  case aisDispatch =>
    unfold execAisDispatch at h; split_ifs at h with h1
    · injection h with h; subst h; exact .tooShort
    · unfold dispatchType at h
      simp only at h
      split at h
      · injection h with h; subst h; exact .unknownType _
      · rename_i r hr
        split_ifs at h with h2 <;> injection h with h <;> subst h
        · exact .wrongSize _ _ _
        · simp [sizeFits] at h2
          exact .dispatched r (by omega) hr h2.1 h2.2
  case aisCast id => injection h with h; subst h; exact .cast id _
  case nmeaParse =>
    unfold execNmeaParse at h
    cases hp : parseLine s.cfg s.t with
    | error e =>
      rw [hp] at h
      cases e with
      | plain e =>
        injection h with h; subst h
        exact .unparsed e (by rintro rfl; exact parseLine_ne_plain_ok hp)
      | checksum a b => injection h with h; subst h; exact .wrongChecksum (a ++ b)
    | ok p =>
      rw [hp] at h
      obtain ⟨x, c⟩ := p
      cases c with
      | none => injection h with h; subst h; exact .parsed x (parseLine_size hp)
      | some c =>
        injection h with h; subst h
        obtain ⟨_, ⟨h1, c', h2, h3⟩ | ⟨_, h⟩⟩ := checkTag_ok.mp (parseLine_ok.mp hp).2.2.2.1
        · cases h3; exact .parsedCarrier x c h1 h2 (parseLine_size hp)
        · cases h
  case nmeaRender =>
    unfold execNmeaRender at h
    cases hp : renderLine s.cfg s.sent with
    | error e =>
      rw [hp] at h; injection h with h; subst h
      exact .raised _ e (by simp) (by simp) (by simp) (by rintro rfl; exact renderLine_ne_ok hp)
    | ok l =>
      rw [hp] at h; injection h with h; subst h
      obtain ⟨_, _, _, _, h5, rfl⟩ := renderLine_ok.mp hp
      exact .rendered _ (by simp [lineText, hex2]; omega)
  case fragBegin => injection h with h; subst h; exact .begun
  case fragAdd =>
    unfold execFragAdd at h; split_ifs at h with h1 h2 h3 <;> injection h with h <;> subst h
    · exact .stillFailed h1
    · exact .notAdded .notCarrier (by simp)
    · exact .notAdded .capacity (by simp)
    · exact .added _ (by omega) (by simpa using h2) (by simpa using h1)
  case fragEnd =>
    unfold execFragEnd at h; split_ifs at h with h1 h2 <;> injection h with h <;> subst h
    · exact .failedEnd h1
    · exact .raised _ .illegal (by simp) (by simp) (by simp) (by simp)
    · exact .delivered
  case fragForm =>
    unfold execFragForm at h; split_ifs at h with h1 h2 h3 h4 <;> injection h with h <;> subst h
    · exact .raised _ .notCarrier (by simp) (by simp) (by simp) (by simp)
    · exact .raised _ .valueRange (by simp) (by simp) (by simp) (by simp)
    · exact .raised _ .valueRange (by simp) (by simp) (by simp) (by simp)
    · exact .raised _ .capacity (by simp) (by simp) (by simp) (by simp)
    · exact .formed _ (by omega)

/-- A command always answers a next state (spec/60_exceptions.md R263). -/
theorem exec_answers (i : Instr) (s : State) : ∃ t, exec i s = .next t := by
  cases i <;> simp only [exec]
  case bfInit => unfold execBfInit; split_ifs <;> exact ⟨_, rfl⟩
  case bfAppend => unfold execBfAppend; split_ifs <;> exact ⟨_, rfl⟩
  case bfPack => unfold execBfPack; split_ifs <;> exact ⟨_, rfl⟩
  case bfUnpack => unfold execBfUnpack; split_ifs <;> exact ⟨_, rfl⟩
  case armEnc => unfold execArmEnc; split_ifs <;> exact ⟨_, rfl⟩
  case armDec =>
    unfold execArmDec
    split_ifs <;> (try exact ⟨_, rfl⟩) <;> cases armorBits s.t <;> exact ⟨_, rfl⟩
  case aisDispatch =>
    unfold execAisDispatch
    split_ifs
    · exact ⟨_, rfl⟩
    · unfold dispatchType
      cases State.cfg _ |>.msgReg _ with
      | none => exact ⟨_, rfl⟩
      | some r => simp only; split_ifs <;> exact ⟨_, rfl⟩
  case aisCast => exact ⟨_, rfl⟩
  case nmeaParse =>
    unfold execNmeaParse
    cases parseLine s.cfg s.t with
    | error e => cases e <;> exact ⟨_, rfl⟩
    | ok p => obtain ⟨x, c⟩ := p; cases c <;> exact ⟨_, rfl⟩
  case nmeaRender =>
    unfold execNmeaRender; cases renderLine s.cfg s.sent <;> exact ⟨_, rfl⟩
  case fragBegin => exact ⟨_, rfl⟩
  case fragAdd => unfold execFragAdd; split_ifs <;> exact ⟨_, rfl⟩
  case fragEnd => unfold execFragEnd; split_ifs <;> exact ⟨_, rfl⟩
  case fragForm => unfold execFragForm; split_ifs <;> exact ⟨_, rfl⟩

/-- Every command keeps the capacities (spec/00_scope.md R7, R8). -/
theorem Memory.wf_exec {i : Instr} {s t : State} (hm : Memory.wf s) (h : exec i s = .next t) :
    Memory.wf t := by
  obtain ⟨hb, ht, ha, hs⟩ := hm
  have hend := exec_end h
  clear h
  cases hend <;> (try exact ⟨hb, ht, ha, hs⟩)
  case init n h => exact ⟨by simpa using h, ht, ha, hs⟩
  case append k w h => exact ⟨by simpa using h, ht, ha, hs⟩
  case pack k o w h => exact ⟨by simpa [bitWrite_length _ _ _ _ h] using hb, ht, ha, hs⟩
  case encoded t f h => exact ⟨hb, h, ha, hs⟩
  case decoded v h => exact ⟨h, ht, ha, hs⟩
  case parsed x hx => exact ⟨hb, ht, ha, hx.trans ht⟩
  case parsedCarrier x c _ _ hx => exact ⟨hb, ht, ha, hx.trans ht⟩
  case rendered t h => exact ⟨hb, h, ha, hs⟩
  case begun => exact ⟨hb, ht, by simp, hs⟩
  case added p h _ _ => exact ⟨hb, ht, by simpa using h, hs⟩
  case delivered => exact ⟨hb, ha, ha, hs⟩
  case formed x hx => exact ⟨hb, ht, ha, hx⟩

/-- Every host write keeps the capacities (spec/10_state.md R44). -/
theorem Memory.wf_hostWrite {w : HostWrite} {s t : State} (hm : Memory.wf s)
    (h : hostWrite w s = .next t) : Memory.wf t := by
  obtain ⟨hb, ht, ha, hs⟩ := hm
  cases w <;> simp only [hostWrite, writeSentence] at h <;> (try split_ifs at h) <;>
    injection h with h <;> subst h <;>
    first
      | exact ⟨hb, ht, ha, hs⟩
      | exact ⟨hb, by assumption, ha, hs⟩
      | exact ⟨by assumption, ht, ha, hs⟩
      | exact ⟨hb, ht, ha, by assumption⟩

/-- What a step that answers a next state has done: nothing (an idle block), or one item of the
host's list. -/
theorem step_next {s t : State} (h : step s = .next t) :
    (s.pending = [] ∧ t = s)
      ∨ ∃ item rest, s.pending = item :: rest ∧ mayPresent item s = true
          ∧ takeItem item { s with pending := rest } = .next t := by
  unfold step at h
  cases hp : s.pending with
  | nil =>
    rw [hp] at h
    injection h with h
    exact .inl ⟨rfl, h.symm⟩
  | cons item rest =>
    rw [hp] at h
    simp only at h
    split_ifs at h with hm
    exact .inr ⟨item, rest, rfl, hm, h⟩

end Sys2Proof.Machine
end

