-- ==== Sys2Proof/Laws/Layout.lean ====
section
/-!
SUPPORT. Layouts: what a well-formed configuration says of the layout of a type, and what the
pieces of a row are: legal widths inside the row, together the row's bits in order.
-/

namespace Sys2Proof

/-- The check over the 64 numbers is one over the type IDs. -/
theorem Config.layoutsOk_iff {c : Config} :
    c.layoutsOk = true ↔ ∀ tid, c.layoutOk tid = true := by
  simp only [Config.layoutsOk, List.all_eq_true, List.mem_range]
  exact ⟨fun h tid => by simpa using h tid.toNat tid.isLt, fun h n _ => h _⟩

/-- What `layoutFits` says, field by field (spec/00_scope.md R10). -/
theorem Config.layoutFits_iff {r : SizeRange} {fields : List FieldDescriptor} :
    Config.layoutFits r fields = true ↔
      (∀ d ∈ fields, d.offset + d.width ≤ r.max.toNat)
        ∧ ∃ d ∈ fields, d.offset = 0 ∧ d.width = 6 ∧ d.kind = .unsigned := by
  simp [Config.layoutFits, and_assoc]

/-- A type's layout belongs to a declared size and fits it. -/
theorem Config.layout_some {c : Config} (hc : c.layoutsOk = true) {tid : BitVec 6}
    {fields : List FieldDescriptor} (h : c.layout tid = some fields) :
    ∃ r, c.msgReg tid = some r ∧ Config.layoutFits r fields = true := by
  have ht := Config.layoutsOk_iff.mp hc tid
  unfold Config.layoutOk at ht
  cases hm : c.msgReg tid <;> simp_all

/-- A registered type has a layout, and it fits. -/
theorem Config.layout_of_msgReg {c : Config} (hc : c.layoutsOk = true) {tid : BitVec 6}
    {r : SizeRange} (h : c.msgReg tid = some r) :
    ∃ fields, c.layout tid = some fields ∧ Config.layoutFits r fields = true := by
  have ht := Config.layoutsOk_iff.mp hc tid
  unfold Config.layoutOk at ht
  cases hl : c.layout tid <;> simp_all

/-- The row of a layout ends within 1023 bits, so its offset fits the command word. -/
theorem Config.layout_row_bound {c : Config} (hc : c.layoutsOk = true) {tid : BitVec 6}
    {fields : List FieldDescriptor} (h : c.layout tid = some fields) {d : FieldDescriptor}
    (hd : d ∈ fields) : d.offset + d.width < 1024 := by
  obtain ⟨r, _, hf⟩ := Config.layout_some hc h
  have := (Config.layoutFits_iff.mp hf).1 d hd
  have := r.max.isLt
  omega

namespace Machine

/-- Every piece of a row has a legal width and lies inside the row. -/
theorem fieldPieces_mem {d p : FieldDescriptor} (h : p ∈ fieldPieces d) :
    1 ≤ p.width ∧ p.width ≤ 64 ∧ d.offset ≤ p.offset
      ∧ p.offset + p.width ≤ d.offset + d.width := by
  unfold fieldPieces valw at h
  split_ifs at h with h1 h2
  · simp at h
  · rw [List.mem_singleton] at h
    subst h
    omega
  · obtain ⟨i, hi, rfl⟩ := List.mem_map.mp h
    rw [List.mem_range] at hi
    simp only [widePiece, valw]
    omega

/-- The first `n` pieces of a wide row are its first `64 * n` bits, in order. -/
theorem widePieces_cover (d : FieldDescriptor) (b : Bits) (n : Nat) :
    ((List.range n).map (widePiece d)).flatMap (fun p => (b.drop p.offset).take p.width)
      = (b.drop d.offset).take (min (64 * n) d.width) := by
  induction n with
  | zero => simp
  | succ n ih =>
    rw [List.range_succ, List.map_append, List.flatMap_append, ih]
    simp only [widePiece, valw, List.map_cons, List.map_nil, List.flatMap_cons, List.flatMap_nil,
      List.append_nil]
    by_cases h : 64 * n ≤ d.width
    · rw [← List.drop_drop, Nat.min_eq_left h, ← List.take_add]
      congr 1
      omega
    · rw [show d.width - 64 * n = 0 by omega, Nat.min_zero, List.take_zero, List.append_nil]
      congr 1
      omega

/-- The pieces of a row are its bits, in order. -/
theorem fieldPieces_cover (d : FieldDescriptor) (b : Bits) :
    (fieldPieces d).flatMap (fun p => (b.drop p.offset).take p.width)
      = (b.drop d.offset).take d.width := by
  unfold fieldPieces
  split_ifs with h1 h2
  · simp [h1]
  · simp
  · rw [widePieces_cover]
    congr 1
    unfold valw
    omega

/-- A piece whose offset is below 65536 becomes its command, nothing wrapped. -/
theorem pieceCommand_eq {command : Kind → BitVec 16 → BitVec 7 → Instr} {p : FieldDescriptor}
    (ho : p.offset < 2 ^ 16) (hw : p.width < 2 ^ 7) :
    pieceCommand command p
      = some (command p.kind (BitVec.ofNat 16 p.offset) (BitVec.ofNat 7 p.width)) := by
  simp only [pieceCommand, fieldOf, if_pos ho, if_pos hw]

/-- A row that ends within 65536 bits becomes one command for each piece. -/
theorem fieldCommands_eq (command : Kind → BitVec 16 → BitVec 7 → Instr) {d : FieldDescriptor}
    (h : d.offset + d.width < 2 ^ 16) :
    fieldCommands command d = some ((fieldPieces d).map
      (fun p => command p.kind (BitVec.ofNat 16 p.offset) (BitVec.ofNat 7 p.width))) := by
  have hp : ∀ p ∈ fieldPieces d, pieceCommand command p
      = some (command p.kind (BitVec.ofNat 16 p.offset) (BitVec.ofNat 7 p.width)) := by
    intro p hp
    have := fieldPieces_mem hp
    exact pieceCommand_eq (by omega) (by omega)
  unfold fieldCommands
  generalize fieldPieces d = l at hp
  induction l with
  | nil => rfl
  | cons p ps ih =>
    rw [List.mapM_cons, hp p (by simp), ih (fun q hq => hp q (by simp [hq]))]
    rfl

end Machine

end Sys2Proof
end

