-- ==== Sys2Proof/Laws/PerInstr.lean ====
section
/-!
SUPPORT. The per-instruction family TableMatch: an encoded command carries, under the mask of its
row of spec/opcode_table.json, exactly the bits of the row's match. Operands lie outside the mask.
-/

namespace Sys2Proof.Laws.TableMatch

open Sys2Proof

/-- The `mask` and the `match` of an instruction's row in spec/opcode_table.json. -/
def row : Instr → Word × Word
  | .bfInit _ => (0xFFFF0000#32, 0x08000000#32)
  | .bfAppend _ _ => (0xF803FFFF#32, 0x10000000#32)
  | .bfPack _ _ _ => (0xF8030000#32, 0x18000000#32)
  | .bfUnpack _ _ _ => (0xF8030000#32, 0x20000000#32)
  | .armEnc => (0xFFFFFFFF#32, 0x40000000#32)
  | .armDec => (0xFFFFFFFF#32, 0x48000000#32)
  | .aisDispatch => (0xFFFFFFFF#32, 0x60000000#32)
  | .aisCast _ => (0xFFFFFFC0#32, 0x68000000#32)
  | .nmeaParse => (0xFFFFFFFF#32, 0x80000000#32)
  | .nmeaRender => (0xFFFFFFFF#32, 0x88000000#32)
  | .fragBegin => (0xFFFFFFFF#32, 0xA0000000#32)
  | .fragAdd => (0xFFFFFFFF#32, 0xA8000000#32)
  | .fragEnd => (0xFFFFFFFF#32, 0xB0000000#32)
  | .fragForm => (0xFFFFFFFF#32, 0xB8000000#32)

/-- The encoded command shows the row's fixed bits. -/
def Statement (i : Instr) : Prop := encode i &&& (row i).1 = (row i).2

/-- An assembled word under a mask, bit by bit. -/
theorem masked (op : BitVec 5) (kind : BitVec 2) (wid : BitVec 7) (imm : BitVec 16)
    (mask fixed : Word)
    (h : ∀ i, i < 32 → ((if i < 16 then imm.getLsbD i
      else if i < 18 then false
      else if i < 25 then wid.getLsbD (i - 18)
      else if i < 27 then kind.getLsbD (i - 25)
      else op.getLsbD (i - 27)) && mask.getLsbD i) = fixed.getLsbD i) :
    assemble op kind wid imm &&& mask = fixed := by
  apply BitVec.eq_of_getLsbD_eq
  intro i hi
  rw [BitVec.getLsbD_and, assemble_getLsbD]
  exact h i hi

theorem bfInit (n : BitVec 16) : Statement (.bfInit n) := by
  refine masked _ _ _ _ _ _ fun i hi => ?_
  interval_cases i <;> simp [row]

theorem bfAppend (kind : Kind) (wid : BitVec 7) : Statement (.bfAppend kind wid) := by
  refine masked _ _ _ _ _ _ fun i hi => ?_
  interval_cases i <;> simp [row]

theorem bfPack (kind : Kind) (off : BitVec 16) (wid : BitVec 7) :
    Statement (.bfPack kind off wid) := by
  refine masked _ _ _ _ _ _ fun i hi => ?_
  interval_cases i <;> simp [row]

theorem bfUnpack (kind : Kind) (off : BitVec 16) (wid : BitVec 7) :
    Statement (.bfUnpack kind off wid) := by
  refine masked _ _ _ _ _ _ fun i hi => ?_
  interval_cases i <;> simp [row]

theorem armEnc : Statement .armEnc := by
  unfold Statement; decide

theorem armDec : Statement .armDec := by
  unfold Statement; decide

theorem aisDispatch : Statement .aisDispatch := by
  unfold Statement; decide

theorem aisCast (id : BitVec 6) : Statement (.aisCast id) := by
  refine masked _ _ _ _ _ _ fun i hi => ?_
  interval_cases i <;> simp [row]

theorem nmeaParse : Statement .nmeaParse := by
  unfold Statement; decide

theorem nmeaRender : Statement .nmeaRender := by
  unfold Statement; decide

theorem fragBegin : Statement .fragBegin := by
  unfold Statement; decide

theorem fragAdd : Statement .fragAdd := by
  unfold Statement; decide

theorem fragEnd : Statement .fragEnd := by
  unfold Statement; decide

theorem fragForm : Statement .fragForm := by
  unfold Statement; decide

end Sys2Proof.Laws.TableMatch
end

