-- ==== Sys2Proof/Tests/Slice0.lean ====
section
/-!
SUPPORT. The model's own tests: the checks of WellFormed, one word of each command written from
spec/30_encoding.md, at most two single steps a command with the outcomes of
spec/95_test_vectors.md, and for each statement with hypotheses a state and operands that meet
them.
-/

namespace Sys2Proof.Tests

open Sys2Proof Sys2Proof.Machine Sys2Proof.Claims

/-- A byte string from its codes. -/
abbrev bytes (codes : List Nat) : Text := codes.map (BitVec.ofNat 8)

/-- A bit sequence from its digits. -/
abbrev bin (digits : List Nat) : Bits := digits.map (fun d => d = 1)

/-- What a test looks at in a next state; `none` when there is none. -/
def look {α : Type} (f : State → α) : Result → Option α
  | .next s => some (f s)
  | .fault _ => none
  | .refused _ => none

/-! ### WellFormed refuses ill-formed terms (spec/30_encoding.md R96) -/

theorem smoke_append_width_zero : (Instr.bfAppend .unsigned 0#7).wellFormed = false := by decide
theorem smoke_append_width_65 : (Instr.bfAppend .unsigned 65#7).wellFormed = false := by decide
theorem smoke_pack_width_zero : (Instr.bfPack .signed 0#16 0#7).wellFormed = false := by decide
theorem smoke_pack_width_65 : (Instr.bfPack .signed 0#16 65#7).wellFormed = false := by decide
theorem smoke_unpack_width_zero : (Instr.bfUnpack .boolean 0#16 0#7).wellFormed = false := by
  decide
theorem smoke_unpack_width_127 : (Instr.bfUnpack .boolean 0#16 127#7).wellFormed = false := by
  decide
theorem smoke_widths_1_and_64 : (Instr.bfPack .signed 0#16 1#7).wellFormed = true
    ∧ (Instr.bfPack .signed 0#16 64#7).wellFormed = true := by decide

/-! ### Decoding: words written out as op, kind, wid, rsv, imm (spec/30_encoding.md R91, R94) -/

theorem test_decode_init :
    decode (0b00001_00_0000000_00_0000000010101000#32) = .ok (.bfInit 168#16) := by decide
theorem test_decode_append :
    decode (0b00010_11_0000010_00_0000000000000000#32) = .ok (.bfAppend .boolean 2#7) := by decide
theorem test_decode_pack :
    decode (0b00011_01_0000100_00_0000000000001000#32) = .ok (.bfPack .signed 8#16 4#7) := by
  decide
theorem test_decode_unpack :
    decode (0b00100_10_1000000_00_1111111111111111#32)
      = .ok (.bfUnpack .enumerated 65535#16 64#7) := by decide
theorem test_decode_enc :
    decode (0b01000_00_0000000_00_0000000000000000#32) = .ok .armEnc := by decide
theorem test_decode_dec :
    decode (0b01001_00_0000000_00_0000000000000000#32) = .ok .armDec := by decide
theorem test_decode_dispatch :
    decode (0b01100_00_0000000_00_0000000000000000#32) = .ok .aisDispatch := by decide
theorem test_decode_cast :
    decode (0b01101_00_0000000_00_0000000000010011#32) = .ok (.aisCast 19#6) := by decide
theorem test_decode_parse :
    decode (0b10000_00_0000000_00_0000000000000000#32) = .ok .nmeaParse := by decide
theorem test_decode_render :
    decode (0b10001_00_0000000_00_0000000000000000#32) = .ok .nmeaRender := by decide
theorem test_decode_begin :
    decode (0b10100_00_0000000_00_0000000000000000#32) = .ok .fragBegin := by decide
theorem test_decode_add :
    decode (0b10101_00_0000000_00_0000000000000000#32) = .ok .fragAdd := by decide
theorem test_decode_end :
    decode (0b10110_00_0000000_00_0000000000000000#32) = .ok .fragEnd := by decide
theorem test_decode_form :
    decode (0b10111_00_0000000_00_0000000000000000#32) = .ok .fragForm := by decide

/-- The illegal words of spec/95_test_vectors.md, each for its own reason. -/
theorem test_illegal_words :
    decode 0x00000000#32 = .error .unusedOperation ∧ decode 0xF8000000#32 = .error .unusedOperation
      ∧ decode 0x40000001#32 = .error .unusedFieldSet
      ∧ decode 0x42000000#32 = .error .unusedFieldSet
      ∧ decode 0x08040010#32 = .error .unusedFieldSet
      ∧ decode 0x20000008#32 = .error .widthOutOfRange
      ∧ decode 0x21040008#32 = .error .widthOutOfRange
      ∧ decode 0x20790008#32 = .error .reservedBitsSet
      ∧ decode 0x10180001#32 = .error .unusedFieldSet
      ∧ decode 0x68000040#32 = .error .typeIdOutOfRange := by decide

/-! ### The commands, one step each (spec/95_test_vectors.md, Part 2) -/

/-- `0101111110010000`, the sequence most rows of family 40 read. -/
abbrev sample : State :=
  { State.reset with b := bin [0,1,0,1, 1,1,1,1, 1,0,0,1, 0,0,0,0] }

theorem test_init : look (fun t => (t.b, t.status)) (exec (.bfInit 4#16) sample)
    = some (bin [0,0,0,0], 0#8) := by decide

theorem test_init_over_capacity : look (fun t => (t.b, t.status)) (exec (.bfInit 1025#16) sample)
    = some (sample.b, 9#8) := by decide

theorem test_append_takes_the_low_bits :
    look (fun t => t.b) (exec (.bfAppend .unsigned 4#7)
      { State.reset with b := bin [0,0,0,0,0,1,0,1], val := 0xABC#64 })
      = some (bin [0,0,0,0,0,1,0,1, 1,1,0,0]) := by decide

theorem test_append_boolean :
    look (fun t => t.b) (exec (.bfAppend .boolean 2#7)
      { State.reset with b := bin [0,0,0,0,0,1], val := 2#64 })
      = some (bin [0,0,0,0,0,1, 0,1]) := by decide

theorem test_pack_truncates :
    look (fun t => (t.b, t.mvalid)) (exec (.bfPack .enumerated 4#16 3#7)
      { sample with val := 9#64, mvalid := true })
      = some (bin [0,1,0,1, 0,0,1,1, 1,0,0,1, 0,0,0,0], false) := by decide

theorem test_pack_past_the_end :
    look (fun t => (t.b, t.status)) (exec (.bfPack .unsigned 15#16 2#7) { sample with val := 1#64 })
      = some (sample.b, 7#8) := by decide

theorem test_unpack_signed :
    look (fun t => t.res) (exec (.bfUnpack .signed 8#16 4#7) sample)
      = some 0xFFFFFFFFFFFFFFF9#64 := by decide

theorem test_unpack_offset_does_not_wrap :
    look (fun t => (t.res, t.status)) (exec (.bfUnpack .unsigned 65535#16 64#7) sample)
      = some (0#64, 7#8) := by decide

/-- Eleven bits give `` `0 `` and one fill bit. -/
theorem test_enc : look (fun t => (t.t, t.fill))
    (exec .armEnc { State.reset with b := bin [1,0,1,0,0,0,0,0,0,0,0] })
      = some (bytes [0x60, 0x30], 1#3) := by decide

/-- The two sides of the skip, 39 and 40. -/
theorem test_enc_skip : look (fun t => t.t)
    (exec .armEnc { State.reset with b := bin [1,0,0,1,1,1, 1,0,1,0,0,0] })
      = some (bytes [0x57, 0x60]) := by decide

/-- `"wu"` with two fill bits: the trimmed bits are not examined. -/
theorem test_dec : look (fun t => t.b)
    (exec .armDec { State.reset with t := bytes [0x77, 0x75], fill := 2#3 })
      = some (bin [1,1,1,1,1,1, 1,1,1,1]) := by decide

/-- `"1X"` with fill 6: the fill is checked before the characters. -/
theorem test_dec_checks_fill_first : look (fun t => t.status)
    (exec .armDec { State.reset with t := bytes [0x31, 0x58], fill := 6#3 }) = some 6#8 := by
  decide

/-- Six bits `000001`: type 1 is named, its size is not met. -/
theorem test_dispatch_size : look (fun t => (t.status, t.mtype, t.mmin, t.mmax, t.mvalid))
    (exec .aisDispatch { State.reset with b := bin [0,0,0,0,0,1], mvalid := true })
      = some (5#8, 1#6, 168#10, 168#10, false) := by decide

/-- Type 63 is unknown; the size registers keep their values. -/
theorem test_dispatch_unknown : look (fun t => (t.status, t.mtype, t.mmin))
    (exec .aisDispatch { State.reset with b := bin [1,1,1,1,1,1], mmin := 168#10 })
      = some (4#8, 63#6, 168#10) := by decide

theorem test_cast_yes : look (fun t => t.res)
    (exec (.aisCast 19#6) { State.reset with mvalid := true, mtype := 19#6 }) = some 1#64 := by
  decide

theorem test_cast_not_valid : look (fun t => (t.res, t.status))
    (exec (.aisCast 19#6) { State.reset with mtype := 19#6, res := 7#64 }) = some (0#64, 0#8) := by
  decide

/-- `$GPXYZ,a,,b` -/
abbrev xyzBody : Text :=
  bytes [0x24, 0x47, 0x50, 0x58, 0x59, 0x5A, 0x2C, 0x61, 0x2C, 0x2C, 0x62]

/-- `GP`, `XYZ`, `a`, nothing, `b`. -/
abbrev xyz : Sentence :=
  ⟨0x24#8, bytes [0x47, 0x50], bytes [0x58, 0x59, 0x5A], [bytes [0x61], [], bytes [0x62]]⟩

/-- `$GPXYZ,a,,b*63` -/
theorem test_parse : look (fun t => (t.sent, t.cvalid, t.status))
    (exec .nmeaParse { State.reset with t := xyzBody ++ bytes [0x2A, 0x36, 0x33] })
      = some (xyz, false, 0#8) := by decide +kernel

/-- `$GPXYZ,a,,b*6A`: both checksums are reported, received first. -/
theorem test_parse_checksum : look (fun t => (t.csRx, t.csCalc, t.status))
    (exec .nmeaParse { State.reset with t := xyzBody ++ bytes [0x2A, 0x36, 0x41] })
      = some (0x6A#8, 0x63#8, 2#8) := by decide +kernel

theorem test_render : look (fun t => (t.t, t.status))
    (exec .nmeaRender { State.reset with sent := xyz })
      = some (xyzBody ++ bytes [0x2A, 0x36, 0x33], 0#8) := by decide +kernel

/-- A talker that begins with `P` would parse back as proprietary. -/
theorem test_render_refuses_talker_p : look (fun t => t.status)
    (exec .nmeaRender { State.reset with sent := { xyz with talker := bytes [0x50, 0x47] } })
      = some 6#8 := by decide +kernel

theorem test_begin : look (fun t => (t.a, t.afill, t.aany, t.aerrc))
    (exec .fragBegin
      { State.reset with a := bytes [0x31], afill := 2#3, aany := true, aerrc := 8#4 })
      = some ([], 0#3, false, 0#4) := by decide

/-- The carrier fields `2,2,3,B,1@,2`. -/
abbrev carrierTexts : List Text :=
  [bytes [0x32], bytes [0x32], bytes [0x33], bytes [0x42], bytes [0x31, 0x40], bytes [0x32]]

/-- The carrier registers those fields decode to. -/
abbrev carrierRegs : Carrier := ⟨2#8, 2#8, true, 3#4, true, 0x42#8, 2#3⟩

/-- `AI`, `VDM` and those fields. -/
abbrev carrierSentence : Sentence :=
  ⟨0x21#8, bytes [0x41, 0x49], bytes [0x56, 0x44, 0x4D], carrierTexts⟩

/-- After a parse of that sentence, with `0` already in the accumulator. -/
abbrev oneFragment : State :=
  { State.reset with sent := carrierSentence, carr := carrierRegs, cvalid := true,
                     a := bytes [0x30], aany := true }

theorem test_add : look (fun t => (t.a, t.afill, t.aany, t.status)) (exec .fragAdd oneFragment)
    = some (bytes [0x30, 0x31, 0x40], 2#3, true, 0#8) := by decide

/-- A recorded failure is raised again, whatever `CVALID` says. -/
theorem test_add_after_failure : look (fun t => (t.a, t.status))
    (exec .fragAdd { oneFragment with aerrc := 8#4 }) = some (bytes [0x30], 8#8) := by decide

theorem test_end : look (fun t => (t.t, t.fill, t.a))
    (exec .fragEnd { oneFragment with afill := 2#3 })
      = some (bytes [0x30], 2#3, bytes [0x30]) := by decide

theorem test_end_without_fragment : look (fun t => t.status) (exec .fragEnd State.reset)
    = some 10#8 := by decide

/-- A formatter call of spec/95_test_vectors.md, family 44: count 255, index 0, sequence 9. -/
theorem test_form : look (fun t => (t.sent.start, t.sent.fields, t.cvalid))
    (exec .fragForm { State.reset with
      sent := { carrierSentence with fields := [] }
      carr := ⟨255#8, 0#8, true, 9#4, false, 0x42#8, 5#3⟩
      cvalid := true })
      = some (0x21#8, [bytes [0x32, 0x35, 0x35], bytes [0x30], bytes [0x39], [], [], bytes [0x30]],
          false) := by decide +kernel

theorem test_form_sequence_10 : look (fun t => t.status)
    (exec .fragForm { State.reset with
      sent := carrierSentence, carr := { carrierRegs with seq := 10#4 } }) = some 6#8 := by
  decide

/-- The examples of spec/44_fragment.md R241: a leading zero is read. -/
theorem test_carrier_fields : carrierFields
    [bytes [0x32, 0x35, 0x35], bytes [0x30, 0x30, 0x31], [], bytes [0x41], bytes [0x31],
      bytes [0x30]] = some ⟨255#8, 1#8, false, 0#4, true, 0x41#8, 0#3⟩ := by decide

/-- Its invalid ones: fill `"6"` and empty, count empty and `"256"`, sequence `"10"`, channel
`"AB"`. -/
theorem test_carrier_fields_invalid :
    ∀ p ∈ [(5, bytes [0x36]), (5, []), (0, []), (0, bytes [0x32, 0x35, 0x36]),
        (2, bytes [0x31, 0x30]), (3, bytes [0x41, 0x42])],
      carrierFields (carrierTexts.set p.1 p.2) = none := by decide

/-! ### The step and the host -/

/-- A step from reset runs the word placed for it (`AIS.CAST 19`), and takes it off the list. -/
theorem test_step_runs_the_word :
    look (fun t => (t.res, t.status, t.pending))
      (step ({ State.reset with mvalid := true, mtype := 19#6 }.withFetchWord 32 0x68000013))
      = some (1#64, 0#8, []) := by decide

theorem test_step_illegal_word :
    look (fun t => t.status) (step (State.reset.withFetchWord 32 0)) = some 10#8 := by decide

theorem test_table_word : decodeTableWord 32 0x1A100008 = some (.bfPack .signed 8#16 4#7) := by
  decide

/-- The expansion of spec/30_encoding.md R104 stops at the first error: the dispatch after a
failed decode is not issued, so `MVALID` keeps its value. -/
theorem test_pseudo_stops : look (fun t => (t.status, t.mvalid))
    ((Pseudo.decodeMessage (bytes [0x58]) 0#3).run { State.reset with mvalid := true })
      = some (1#8, true) := by decide

/-- The two words of spec/93_implementation_defined.md G2 for the MMSI field. -/
theorem test_layout_row :
    (fieldUnpack ⟨"MMSI", 8, 30, .unsigned⟩).map (List.map encode) = some [0x20780008#32]
      ∧ (Config.positionReport[2]?).bind fieldPack = some [.bfPack .unsigned 8#16 30#7] := by decide

/-- A row of 156 bits is no command of 28 bits but three pieces. -/
theorem test_layout_wide_row : fieldPack ⟨"text", 40, 156, .unsigned⟩
    = some [.bfPack .unsigned 40#16 64#7, .bfPack .unsigned 104#16 64#7,
        .bfPack .unsigned 168#16 28#7] := by decide

/-- A registered type without a layout is no configuration the sources allow. -/
theorem test_layout_missing : ({ Config.vectors with layouts := [] } : Config).layoutsOk = false := by
  decide

theorem test_asm_text : asmText (.bfPack .signed 8#16 4#7) = "BF.PACK.S 8, 4"
    ∧ asmText (.aisCast 19#6) = "AIS.CAST 19" := by decide

/-- `BF.PACK 0x10, 30 ;a` : no suffix is `.U`, hexadecimal and decimal operands, a comment. -/
theorem test_assemble_line :
    assembleLine ['B', 'F', '.', 'P', 'A', 'C', 'K', ' ', '0', 'x', '1', '0', ',', ' ', '3', '0',
      ' ', ';', 'a'] = some (.bfPack .unsigned 16#16 30#7)
      ∧ assembleLine ['A', 'R', 'M', '.', 'D', 'E', 'C'] = some .armDec
      ∧ assembleLine ['A', 'I', 'S', '.', 'C', 'A', 'S', 'T', ' ', '6', '4'] = none
      ∧ assembleLine ['B', 'F', '.', 'I', 'N', 'I', 'T', ' ', '1', ' ', '6'] = none := by
  decide +kernel

theorem test_host_read_bit : hostRead (.bit 15) sample = some (.number 0)
    ∧ hostRead (.bit 16) sample = none := by decide

/-- Entries of spec/00_scope.md R10 and of `TAGREG_T` (spec/43_nmea.md), read by the host. -/
theorem test_host_read_registry :
    hostRead (.msgReg 19#6) sample = some (.declared (some ⟨312#10, 312#10⟩))
      ∧ hostRead (.tagReg (bytes [0x5A, 0x5A, 0x5A])) sample = some (.fieldCount none) := by decide

/-! ### Witnesses: for each statement with hypotheses, what meets them, clause by clause -/

/-- What a look sees stands in a next state. -/
theorem next_of_look {α : Type} {f : State → α} {r : Result} {v : α} (h : look f r = some v) :
    ∃ t, r = .next t ∧ f t = v := by
  cases r with
  | next t => exact ⟨t, rfl, Option.some.inj h⟩
  | fault x => cases x
  | refused x => simp [look] at h

/-- A state whose `B` is `n` zero bits. -/
abbrev zeros (n : Nat) : State := { State.reset with b := List.replicate n false }

/-- A state with an item presented. -/
abbrev presenting (item : HostItem) : State := { State.reset with pending := [item] }

theorem witness_DecodeOfEncodeIsTheCommand :
    (Instr.bfPack .boolean 65535#16 64#7).wellFormed = true
      ∧ (Instr.bfAppend .signed 1#7).wellFormed = true := by decide

theorem witness_AcceptedWordIsItsOwnEncoding :
    decode 0x6800003F#32 = .ok (.aisCast 63#6) := by decide

theorem witness_IllegalWordsRaiseIllegalAndNothingElse :
    (∀ cw ∈ [0x00000000#32, 0xC0000000#32, 0x08010000#32, 0x40000001#32, 0x08040000#32,
        0x10040001#32, 0x18000000#32, 0x21040000#32, 0x68000040#32], Illegal cw)
      ∧ ∀ cw ∈ [0x0800FFFF#32, 0xB8000000#32, 0x18040000#32, 0x2700FFFF#32, 0x6800003F#32],
        ¬ Illegal cw := by
  constructor <;> intro cw h <;> unfold Illegal <;> fin_cases h <;> decide

theorem witness_StepExecutesTheDecodedCommand :
    (presenting (.command 0x40000000#32)).busy = false
      ∧ (presenting (.command 0x40000000#32)).pending = .command 0x40000000#32 :: []
      ∧ decode 0x40000000#32 = .ok .armEnc
      ∧ (presenting (.command 0#32)).busy = false
      ∧ (presenting (.command 0#32)).pending = .command 0#32 :: [] := by decide

theorem witness_StepWaitsForTheHostAndRefusesIntrusion :
    State.reset.pending = []
      ∧ { presenting (.read .status) with status := 0x10#8 }.pending = .read .status :: []
      ∧ HostItem.read .status ≠ .reset
      ∧ { presenting (.read .status) with status := 0x10#8 }.busy = true := by decide

theorem witness_ResetItemRestoresEveryElement :
    { presenting .reset with status := 0x10#8 }.pending = .reset :: [] := by decide

/-- Every bounded clause at its capacity exactly. -/
theorem witness_HostWritesHaveTheTableEffects :
    (List.replicate 256 0#8).length ≤ State.reset.cfg.tcap
      ∧ (List.replicate 1024 true).length ≤ State.reset.cfg.bcap
      ∧ (List.replicate 252 0#8).length + xyz.tag.length + 1 ≤ State.reset.cfg.tcap
      ∧ xyz.talker.length + (List.replicate 252 0#8).length + (xyz.fields.map List.length).sum
          ≤ State.reset.cfg.tcap
      ∧ xyz.talker.length + xyz.tag.length
          + (([List.replicate 251 0#8] : List Text).map List.length).sum
          ≤ State.reset.cfg.tcap := by decide +kernel

theorem witness_HostReadsHaveNoSideEffect :
    (presenting (.read .res)).busy = false ∧ (∀ i, Element.res ≠ .bit i)
      ∧ (presenting (.read .res)).pending = .read .res :: []
      ∧ 15 < sample.b.length ∧ { sample with pending := [.read (.bit 15)] }.busy = false
      ∧ sample.b.length ≤ 16 := by
  refine ⟨by decide, fun i => by simp, by decide, by decide, by decide, by decide⟩

theorem witness_InitGivesZeroBits :
    State.reset.cfg.bcap < (1025#16).toNat ∧ (1024#16).toNat ≤ State.reset.cfg.bcap := by decide

theorem witness_AppendAddsTheFieldAtTheEnd :
    legalWidth 1#7 = true ∧ legalWidth 64#7 = true
      ∧ (zeros 1024).cfg.bcap < (zeros 1024).b.length + (1#7).toNat
      ∧ (zeros 960).b.length + (64#7).toNat ≤ (zeros 960).cfg.bcap := by decide +kernel

theorem witness_PackWritesTheFieldOnly :
    legalWidth 5#7 = true ∧ legalWidth 4#7 = true
      ∧ sample.b.length < (12#16).toNat + (5#7).toNat
      ∧ (12#16).toNat + (4#7).toNat ≤ sample.b.length := by decide

theorem witness_UnpackReadsTheField :
    legalWidth 1#7 = true ∧ sample.b.length < (16#16).toNat + (1#7).toNat
      ∧ (15#16).toNat + (1#7).toNat ≤ sample.b.length := by decide

theorem witness_UnpackedValueFitsItsWidth :
    legalWidth 1#7 = true ∧ legalWidth 64#7 = true
      ∧ (63#16).toNat + (1#7).toNat ≤ (zeros 64).b.length
      ∧ (0#16).toNat + (64#7).toNat ≤ (zeros 64).b.length := by decide

theorem witness_PackThenUnpackReturnsTheValue :
    legalWidth 64#7 = true ∧ (3#16).toNat + (64#7).toNat ≤ (zeros 67).b.length := by decide

theorem witness_UnpackThenPackLeavesTheBits :
    legalWidth 16#7 = true ∧ (0#16).toNat + (16#7).toNat ≤ sample.b.length := by decide

theorem witness_PacksOfDisjointFieldsCommute :
    legalWidth 9#7 = true ∧ legalWidth 7#7 = true
      ∧ (0#16).toNat + (9#7).toNat ≤ sample.b.length
      ∧ (9#16).toNat + (7#7).toNat ≤ sample.b.length
      ∧ (0#16).toNat + (9#7).toNat ≤ (9#16).toNat := by decide

/-- A configuration with the least capacities the sources allow. -/
abbrev small : Config := { Config.vectors with bcap := 936, tcap := 156 }

theorem witness_ArmorAlphabetIsABijection :
    (39#6).toNat ≤ 39 ∧ 40 ≤ (40#6).toNat ∧ dec6 0x60#8 = some 40#6 := by decide

theorem witness_EncodeArmorsEveryGroup :
    { State.resetWith { small with bcap := 1024 } with b := List.replicate 937 true }.cfg.tcap
        < (937 + (6 - 937 % 6) % 6) / 6
      ∧ (936 + (6 - 936 % 6) % 6) / 6 ≤ (State.resetWith small).cfg.tcap := by decide

/-- A state for the decoder. -/
abbrev armored (t : Text) (fill : BitVec 3) : State := { State.reset with t := t, fill := fill }

theorem witness_DecodeArmorBitByBit :
    5 < (armored [] 6#3).fill.toNat
      ∧ ((armored [] 5#3).fill.toNat ≤ 5 ∧ State.reset.cfg.bcap < 6 * 171
          ∧ 6 * 170 ≤ State.reset.cfg.bcap)
      ∧ (∃ c ∈ bytes [0x31, 0x58], dec6 c = none)
      ∧ (∀ c ∈ bytes [0x77, 0x60], dec6 c ≠ none)
      ∧ 6 * (armored [] 1#3).t.length < (1#3).toNat
      ∧ (5#3).toNat ≤ 6 * (armored (bytes [0x77]) 5#3).t.length := by decide

theorem witness_ArmorRoundTripRestoresTheBits :
    ((zeros 1020).b.length + 5) / 6 ≤ (zeros 1020).cfg.tcap
      ∧ 6 * (((zeros 1020).b.length + 5) / 6) ≤ (zeros 1020).cfg.bcap
      ∧ small.wf ∧ (List.replicate 936 true).length ≤ 936 := by decide +kernel

theorem witness_ReencodingClearsOnlyTrimmedBits :
    (armored (bytes [0x77, 0x75]) 2#3).t.length ≤ State.reset.cfg.tcap ∧ (2#3).toNat ≤ 5
      ∧ 6 * 2 ≤ State.reset.cfg.bcap ∧ (∀ c ∈ bytes [0x77, 0x75], dec6 c ≠ none)
      ∧ (bytes [0x77, 0x75]).getLast? = some 0x75#8 ∧ dec6 0x75#8 = some 61#6 := by decide

theorem witness_RegistriesHoldTheFixedEntries : Config.vectors.wf ∧ small.wf := by decide +kernel

/-- A layout of the test's own: the type, a text of 156 bits, a flag. -/
abbrev layout8 : List FieldDescriptor :=
  [⟨"message type", 0, 6, .unsigned⟩, ⟨"text", 40, 156, .unsigned⟩, ⟨"flag", 935, 1, .boolean⟩]

/-- A configuration with one open message type, 8, from 56 to 936 bits. -/
abbrev withType8 : Config :=
  { Config.vectors with
    openTypes := [(8#6, ⟨56#10, 936#10⟩)]
    layouts := (8#6, layout8) :: Config.vectors.layouts }

theorem witness_LayoutRowsBecomeLegalCommands :
    withType8.wf ∧ withType8.layout 8#6 = some layout8
      ∧ ⟨"text", 40, 156, .unsigned⟩ ∈ layout8 ∧ ⟨"flag", 935, 1, .boolean⟩ ∈ layout8 := by
  decide +kernel

/-- `n` bits of a message of type 8. -/
abbrev type8 (n : Nat) : State :=
  { State.resetWith withType8 with b := bin [0,0,1,0,0,0] ++ List.replicate (n - 6) false }

theorem witness_DispatchReportsTypeAndSize :
    (zeros 5).b.length < 6 ∧ 6 ≤ (zeros 6).b.length ∧ (0#6).toNat = fieldSum (zeros 6).b 0 6
      ∧ (zeros 6).cfg.msgReg 0#6 = none
      ∧ (8#6).toNat = fieldSum (type8 55).b 0 6
      ∧ withType8.msgReg 8#6 = some ⟨56#10, 936#10⟩
      ∧ (type8 55).b.length < 56 ∧ 56 ≤ (type8 56).b.length
      ∧ (type8 936).b.length ≤ 936 ∧ 936 < (type8 937).b.length := by decide +kernel

theorem witness_RegisteredTypesPassExactlyInTheirSize :
    6 ≤ (bin [0,0,0,0,0,1]).length ∧ fieldSum (bin [0,0,0,0,0,1]) 0 6 = 1
      ∧ fieldSum (bin [0,0,0,0,1,0]) 0 6 = 2 ∧ fieldSum (bin [0,0,0,0,1,1]) 0 6 = 3
      ∧ fieldSum (bin [0,1,0,0,1,1]) 0 6 = 19
      ∧ (8#6).toNat = fieldSum (bin [0,0,1,0,0,0]) 0 6
      ∧ withType8.msgReg 8#6 = some ⟨56#10, 936#10⟩ := by decide

theorem witness_UnregisteredTypesAreUnknown :
    6 ≤ (bin [0,1,1,1,0,0]).length ∧ (28#6).toNat = fieldSum (bin [0,1,1,1,0,0]) 0 6
      ∧ (63#6).toNat = fieldSum (bin [1,1,1,1,1,1]) 0 6
      ∧ (27#6).toNat = fieldSum (bin [0,1,1,0,1,1]) 0 6
      ∧ State.reset.cfg.msgReg 27#6 = none := by decide

theorem witness_CastTestsTheDispatchedType :
    { State.reset with mvalid := true, mtype := 63#6 }.mvalid = true
      ∧ { State.reset with mvalid := true, mtype := 63#6 }.mtype = 63#6
      ∧ State.reset.mvalid = false := by decide

theorem witness_BuiltMessageDispatchesToItsType :
    Config.vectors.wf ∧ Config.vectors.msgReg 19#6 = some ⟨312#10, 312#10⟩
      ∧ { State.reset with val := 19#64 }.val = (19#6).setWidth 64 := by decide +kernel

/-- The fields of the carrier sentence are in the grammar of R241. -/
theorem carrierTexts_grammar : CarrierGrammar carrierTexts carrierRegs := by
  refine ⟨_, _, _, _, _, _, rfl, ?_, ?_, .inr ⟨_, rfl, ?_⟩, .inr ?_, ⟨_, rfl, ?_⟩⟩ <;>
    (try unfold CountText) <;> decide

/-- With a fill field `"6"` they are not. -/
theorem carrierTexts_fill_6 (c : Carrier) :
    ¬ CarrierGrammar (carrierTexts.set 5 (bytes [0x36])) c := by
  rintro ⟨f0, f1, f2, f3, f4, f5, hf, _, _, _, _, d, rfl, _, h, _⟩
  have hd : [0x36#8] = [d] := congrArg (fun l => l.getD 5 []) hf
  rw [List.cons.injEq, and_iff_left rfl] at hd
  subst hd
  exact absurd h (by decide)

theorem witness_ParseDeliversAWellFormedLine :
    (StartToken xyz.start ∧ AddressShape xyz.talker xyz.tag ∧ PlainSentence xyz
        ∧ Config.vectors.tagReg xyz.tag = some xyz.fields.length
        ∧ Config.vectors.isCarrier xyz.tag = false)
      ∧ (StartToken carrierSentence.start
        ∧ AddressShape carrierSentence.talker carrierSentence.tag
        ∧ PlainSentence carrierSentence
        ∧ Config.vectors.tagReg carrierSentence.tag = some carrierSentence.fields.length
        ∧ Config.vectors.isCarrier carrierSentence.tag = true
        ∧ CarrierGrammar carrierSentence.fields carrierRegs)
      ∧ AddressShape [] (bytes [0x50]) ∧ Config.vectors.tagReg (bytes [0x50]) = some 0 := by
  refine ⟨by decide +kernel, ?_, by decide⟩
  refine ⟨?_, ?_, ?_, ?_, ?_, carrierTexts_grammar⟩ <;> decide +kernel

theorem witness_ParseRefusesUnknownTagThenCount :
    Config.vectors.tagReg (bytes [0x5A, 0x5A, 0x5A]) = none
      ∧ Config.vectors.tagReg xyz.tag = some 3
      ∧ { xyz with fields := [[]] }.fields.length ≠ 3
      ∧ PlainSentence { xyz with fields := [[]] }
      ∧ Config.vectors.isCarrier carrierSentence.tag = true
      ∧ PlainSentence { carrierSentence with fields := carrierTexts.set 5 (bytes [0x36]) }
      ∧ { State.reset with t := lineOf xyz }.t = lineOf xyz
      ∧ ∀ c, ¬ CarrierGrammar (carrierTexts.set 5 (bytes [0x36])) c := by
  refine ⟨?_, ?_, ?_, ?_, ?_, ?_, ?_, carrierTexts_fill_6⟩ <;> decide +kernel

theorem witness_ParseNeedsAStartToken :
    (∀ c, State.reset.t.head? = some c → ¬ StartToken c)
      ∧ (bytes [0x47, 0x50]).head? = some 0x47#8 ∧ ¬ StartToken 0x47#8 := by
  exact ⟨fun c h => (nomatch h), by decide, by decide⟩

theorem witness_ParseNeedsAChecksumWindow :
    StartToken 0x24#8 ∧ xyzBody = 0x24#8 :: xyzBody.tail ∧ 0x2A#8 ∉ xyzBody.tail
      ∧ ([] : Text).length ≠ 2 ∧ (bytes [0x35, 0x36, 0x30]).length ≠ 2
      ∧ (∃ c ∈ bytes [0x35, 0x47], c ∉ hexAlphabet)
      ∧ (∃ c ∈ bytes [0x35, 0x62], c ∉ hexAlphabet) := by decide

theorem witness_ParseReportsBothChecksums :
    StartToken 0x24#8 ∧ 0x2A#8 ∉ xyzBody.tail ∧ 0x6A#8 ≠ xorAll xyzBody.tail
      ∧ hexUpper 0x6A#8 = bytes [0x36, 0x41] := by decide

/-- Addresses of no, four and six characters. -/
theorem witness_ParseRefusesOtherAddressLengths :
    (([] : Text).takeWhile (· ≠ 0x2C#8)).head? ≠ some 0x50#8
      ∧ (([] : Text).takeWhile (· ≠ 0x2C#8)).length ≠ 5
      ∧ ((bytes [0x47, 0x50, 0x58, 0x59, 0x2C, 0x61]).takeWhile (· ≠ 0x2C#8)).length = 4
      ∧ ((bytes [0x47, 0x50, 0x58, 0x59, 0x5A, 0x51]).takeWhile (· ≠ 0x2C#8)).length = 6 := by
  decide

theorem witness_RenderWritesTheLineOfTheRegisters :
    ¬ StartToken State.reset.sent.start
      ∧ ¬ AddressShape (bytes [0x50, 0x47]) xyz.tag ∧ ¬ AddressShape [] []
      ∧ ¬ PlainSentence { xyz with fields := [bytes [0x61, 0x2C]] }
      ∧ StartToken xyz.start ∧ AddressShape xyz.talker xyz.tag ∧ PlainSentence xyz
      ∧ Config.vectors.tagReg xyz.tag = some 3 ∧ xyz.fields.length = 3
      ∧ Config.vectors.isCarrier xyz.tag = false
      ∧ 1 + (spanOf { xyz with fields := [List.replicate 120 0x61#8, List.replicate 120 0x62#8,
          List.replicate 4 0x63#8] }).length + 3 = Config.vectors.tcap
      ∧ Config.vectors.tagReg (bytes [0x5A, 0x5A, 0x5A]) = none
      ∧ CarrierGrammar carrierTexts carrierRegs
      ∧ ∀ c, ¬ CarrierGrammar (carrierTexts.set 5 (bytes [0x36])) c := by
  refine ⟨by decide, by decide, by decide, by decide, by decide, by decide, by decide, ?_, ?_, ?_,
    ?_, ?_, carrierTexts_grammar, carrierTexts_fill_6⟩ <;> decide +kernel

/-- A state whose line parses. -/
abbrev lineState : State := { State.reset with t := xyzBody ++ bytes [0x2A, 0x36, 0x33] }

theorem witness_RenderKeepsTheFieldPlaces :
    ∃ t, exec .nmeaRender { State.reset with sent := xyz } = .next t ∧ t.status = 0#8 :=
  next_of_look (f := fun t => t.status) (by decide +kernel)

theorem witness_RenderAfterParseRestoresTheLine :
    lineState.t.length ≤ lineState.cfg.tcap
      ∧ ∃ t, exec .nmeaParse lineState = .next t ∧ t.status = 0#8 :=
  ⟨by decide, next_of_look (f := fun t => t.status) (by decide +kernel)⟩

theorem witness_ParseAfterRenderRestoresTheSentence :
    ∃ t, exec .nmeaRender { State.reset with sent := carrierSentence } = .next t
      ∧ t.status = 0#8 :=
  next_of_look (f := fun t => t.status) (by decide +kernel)

/-- The last byte of the span replaced, by another letter or by the delimiter. -/
theorem witness_OneChangedByteIsDetected :
    (∃ t, exec .nmeaParse lineState = .next t ∧ t.status = 0#8)
      ∧ lineState.t = 0x24#8
          :: (bytes [0x47, 0x50, 0x58, 0x59, 0x5A, 0x2C, 0x61, 0x2C, 0x2C] ++ 0x62#8 :: []
            ++ 0x2A#8 :: bytes [0x36, 0x33])
      ∧ (bytes [0x36, 0x33]).length = 2 ∧ 0x6B#8 ≠ 0x62#8 ∧ 0x2A#8 ≠ 0x62#8 :=
  ⟨next_of_look (f := fun t => t.status) (by decide +kernel), by decide⟩

theorem witness_ParsedSentenceFitsTheLine :
    ∃ t, exec .nmeaParse lineState = .next t ∧ t.status = 0#8 :=
  witness_RenderAfterParseRestoresTheLine.2

/-- The failed parse of the statement: the empty line. -/
theorem witness_FailedParseKeepsTheRegisters :
    ∃ t, exec .nmeaParse State.reset = .next t ∧ t.status = 1#8 :=
  next_of_look (f := fun t => t.status) (by decide)

theorem witness_FragAddAppendsThePayload :
    { oneFragment with aerrc := 9#4 }.aerrc ≠ 0#4
      ∧ (State.reset.aerrc = 0#4 ∧ State.reset.cvalid = false)
      ∧ (oneFragment.aerrc = 0#4 ∧ oneFragment.cvalid = true
        ∧ oneFragment.sent.fields[4]? = some (bytes [0x31, 0x40]))
      ∧ { oneFragment with a := List.replicate 255 0x30#8 }.cfg.tcap < 255 + 2
      ∧ 254 + 2 ≤ { oneFragment with a := List.replicate 254 0x30#8 }.cfg.tcap := by
  decide +kernel

theorem witness_FragEndDeliversTheText :
    { oneFragment with aerrc := 8#4 }.aerrc ≠ 0#4 ∧ State.reset.aany = false
      ∧ oneFragment.aerrc = 0#4 ∧ oneFragment.aany = true := by decide

/-- A state `FRAG.FORM` accepts, its fill and its sequence number the largest it takes. -/
abbrev formable : State :=
  { State.reset with sent := carrierSentence, carr := { carrierRegs with seq := 9#4 }, fill := 5#3 }

theorem witness_FragFormWritesTheCarrierFields :
    Config.vectors.isCarrier State.reset.sent.tag = false
      ∧ Config.vectors.isCarrier formable.sent.tag = true
      ∧ 5 < { formable with fill := 6#3 }.fill.toNat ∧ formable.fill.toNat ≤ 5
      ∧ formable.carr.seqPresent = true ∧ formable.carr.seq.toNat ≤ 9
      ∧ 9 < { carrierRegs with seq := 10#4 }.seq.toNat
      ∧ Config.vectors.tcap < (formedSentence { formable with t := List.replicate 247 0x30#8 }).size
      ∧ (formedSentence { formable with t := List.replicate 246 0x30#8 }).size
          = Config.vectors.tcap := by decide +kernel

theorem witness_FormedFieldsReadBackAsTheRegisters :
    ∃ t, exec .fragForm formable = .next t ∧ t.status = 0#8 :=
  next_of_look (f := fun t => t.status) (by decide +kernel)

/-- One fragment of the reassembly statement. -/
abbrev lineFragment : Text × Sentence × Carrier :=
  (lineOf carrierSentence, carrierSentence, carrierRegs)

/-- Two copies of that carrier line presented for reassembly, then a reset. -/
abbrev reassembling : State :=
  { State.reset with
    pending := reassemblyItems ([lineFragment, lineFragment].map (fun f => f.1))
      ++ [HostItem.reset] }

theorem witness_ReassemblyConcatenatesInOrder :
    reassembling.busy = false
      ∧ [lineFragment, lineFragment].getLast? = some lineFragment
      ∧ (∀ f ∈ [lineFragment, lineFragment], f.1.length ≤ reassembling.cfg.tcap
          ∧ parseLine reassembling.cfg f.1 = .ok ⟨f.2.1, some f.2.2⟩)
      ∧ (([lineFragment, lineFragment].map (fun f => f.2.1.fields.getD 4 [])).flatten).length
          ≤ reassembling.cfg.tcap
      ∧ reassembling.pending = reassemblyItems ([lineFragment, lineFragment].map (fun f => f.1))
          ++ [HostItem.reset] := by
  have h : lineFragment.1.length ≤ reassembling.cfg.tcap
      ∧ parseLine reassembling.cfg lineFragment.1
        = .ok ⟨lineFragment.2.1, some lineFragment.2.2⟩ := by decide +kernel
  refine ⟨by decide, rfl, ?_, by decide +kernel, rfl⟩
  intro f hf
  rw [List.mem_cons, List.mem_singleton, or_self] at hf
  exact hf ▸ h

theorem witness_FailedCommandHasNoOutput :
    (∃ t, exec .nmeaParse State.reset = .next t ∧ t.err = 1#4)
      ∧ (∃ t, exec .aisDispatch State.reset = .next t ∧ t.err = 7#4)
      ∧ ∃ t, exec .fragAdd State.reset = .next t ∧ t.err = 8#4 :=
  ⟨next_of_look (f := State.err) (by decide), next_of_look (f := State.err) (by decide),
    next_of_look (f := State.err) (by decide)⟩

theorem witness_ElementsAreWrittenOnlyByTheirCommands :
    ∃ t, exec .armEnc State.reset = .next t ∧ t.err = 0#4 :=
  next_of_look (f := State.err) (by decide)

theorem witness_CommandsOnTheResetState :
    legalWidth 1#7 = true ∧ legalWidth 64#7 = true ∧ Config.vectors.isCarrier [] = false := by
  decide

theorem witness_PseudoInstructionsExpandAndStop :
    legalWidth 64#7 = true
      ∧ (∃ t, takeItem (.command 0#32) State.reset = .next t ∧ t.err = 10#4)
      ∧ ∃ t, takeItem (.command 0x40000000#32) State.reset = .next t ∧ t.err = 0#4 :=
  ⟨by decide, next_of_look (f := State.err) (by decide), next_of_look (f := State.err) (by decide)⟩

theorem witness_ResetStateMeetsTheInvariant : small.wf := by decide +kernel

/-- A state that meets every part of the invariant with both flags set, and a step from it. -/
abbrev busyState : State :=
  { oneFragment with
    b := bin [0,0,0,0,1,0] ++ List.replicate 162 false
    mvalid := true, mtype := 2#6, mmin := 168#10, mmax := 168#10
    pending := [.command 0xA8000000#32] }

theorem witness_invariant_state : Inv busyState := by decide +kernel

theorem witness_StepKeepsTheInvariant :
    Inv busyState ∧ ∃ t, step busyState = .next t ∧ t.status = 0#8 :=
  ⟨witness_invariant_state, next_of_look (f := fun t => t.status) (by decide +kernel)⟩

theorem witness_StepKeepsTheCapacities :
    Memory.wf busyState ∧ ∃ t, step busyState = .next t ∧ t.status = 0#8 :=
  ⟨witness_invariant_state.2.1, witness_StepKeepsTheInvariant.2⟩

theorem witness_StepKeepsTheMeaningOfMvalid :
    MessageValid busyState ∧ busyState.mvalid = true
      ∧ ∃ t, step busyState = .next t ∧ t.status = 0#8 :=
  ⟨witness_invariant_state.2.2.2.1, rfl, witness_StepKeepsTheInvariant.2⟩

theorem witness_StepKeepsTheMeaningOfCvalid :
    CarrierValid busyState ∧ busyState.cvalid = true
      ∧ ∃ t, step busyState = .next t ∧ t.status = 0#8 :=
  ⟨witness_invariant_state.2.2.2.2.1, rfl, witness_StepKeepsTheInvariant.2⟩

end Sys2Proof.Tests
end

section
/-!
Reset values: what every state element holds after reset (spec/10_state.md R46), assembled from the
field laws of `State.resetWith`.
-/
namespace Sys2Proof.Machine

/-- `S.START` is 0, and `S.TALKER`, `S.TAG` and `S.F` are empty (R46). -/
theorem State.resetWith_sent_fields (c : Config) :
    (State.resetWith c).sent = ⟨0#8, [], [], []⟩ := by
  rw [State.resetWith_sent, Sentence.empty]

/-- Every register of `C` is 0, the two presence flags included (R46). -/
theorem State.resetWith_carr_fields (c : Config) :
    (State.resetWith c).carr = ⟨0#8, 0#8, false, 0#4, false, 0#8, 0#3⟩ := by
  rw [State.resetWith_carr, Carrier.zero]

/-- `State.reset` is the reset state of the configuration it carries. -/
theorem State.reset_eq_resetWith_cfg : State.reset = State.resetWith State.reset.cfg := by
  rw [State.reset, State.resetWith_cfg]

/-- Settles O7, element by element in the order of the table of R46. -/
theorem resetValuesAreZeroOrEmpty : Obligations.ResetValuesAreZeroOrEmpty := fun c =>
  ⟨State.resetWith_val c, State.resetWith_res c, State.resetWith_b c, State.resetWith_t c,
    State.resetWith_fill c, State.resetWith_status c, State.resetWith_csinfo c,
    State.resetWith_mtype c, State.resetWith_mmin c, State.resetWith_mmax c,
    State.resetWith_mvalid c, State.resetWith_sent_fields c, State.resetWith_carr_fields c,
    State.resetWith_cvalid c, State.resetWith_a c, State.resetWith_afill c,
    State.resetWith_aany c, State.resetWith_aerrc c, State.resetWith_cfg c,
    State.reset_eq_resetWith_cfg⟩

end Sys2Proof.Machine
end

section
/-!
Illegal words: the command word's fields as numbers, one lemma per format saying when its decoder
accepts, and together that the decoder accepts exactly the words R96 does not list
(spec/30_encoding.md R95, R96).
-/
namespace Sys2Proof

open Sys2Proof.Machine Sys2Proof.Claims

/-! ### The fields of a command word as numbers (R91) -/

theorem opOf_eq_toNat (cw : Word) : opOf cw = (opField cw).toNat := by
  have := cw.isLt
  simp only [opOf, opField, BitVec.extractLsb'_toNat, Nat.shiftRight_eq_div_pow]
  omega

theorem kindOf_eq_toNat (cw : Word) : kindOf cw = (kindField cw).toNat := by
  simp [kindOf, kindField, Nat.shiftRight_eq_div_pow]

theorem widOf_eq_toNat (cw : Word) : widOf cw = (widField cw).toNat := by
  simp [widOf, widField, Nat.shiftRight_eq_div_pow]

theorem rsvOf_eq_toNat (cw : Word) : rsvOf cw = (rsvField cw).toNat := by
  simp [rsvOf, rsvField, Nat.shiftRight_eq_div_pow]

theorem immOf_eq_toNat (cw : Word) : immOf cw = (immField cw).toNat := by
  simp [immOf, immField]

theorem kindField_eq_zero {cw : Word} : kindField cw = 0#2 ↔ kindOf cw = 0 := by
  rw [kindOf_eq_toNat, BitVec.toNat_eq]; rfl

theorem widField_eq_zero {cw : Word} : widField cw = 0#7 ↔ widOf cw = 0 := by
  rw [widOf_eq_toNat, BitVec.toNat_eq]; rfl

theorem rsvField_eq_zero {cw : Word} : rsvField cw = 0#2 ↔ rsvOf cw = 0 := by
  rw [rsvOf_eq_toNat, BitVec.toNat_eq]; rfl

theorem immField_eq_zero {cw : Word} : immField cw = 0#16 ↔ immOf cw = 0 := by
  rw [immOf_eq_toNat, BitVec.toNat_eq]; rfl

theorem opOf_of_opField {cw : Word} {op : BitVec 5} (h : opField cw = op) :
    opOf cw = op.toNat := by
  rw [opOf_eq_toNat, h]

theorem legalWidth_widField {cw : Word} :
    legalWidth (widField cw) = true ↔ ¬ (widOf cw = 0 ∨ 64 < widOf cw) := by
  simp only [legalWidth, ← widOf_eq_toNat, Bool.and_eq_true, decide_eq_true_eq]
  omega

/-! ### When the decoder of each format accepts -/

theorem decodeInit_ok {cw : Word} {j : Instr} :
    decodeInit cw = .ok j ↔
      kindField cw = 0#2 ∧ widField cw = 0#7 ∧ .bfInit (immField cw) = j := by
  unfold decodeInit
  split_ifs with h
  · simp only [false_iff]; tauto
  · simp only [Except.ok.injEq]; tauto

theorem decodeCast_ok {cw : Word} {j : Instr} :
    decodeCast cw = .ok j ↔
      kindField cw = 0#2 ∧ widField cw = 0#7 ∧ (immField cw).toNat ≤ 63
        ∧ .aisCast ((immField cw).extractLsb' 0 6) = j := by
  unfold decodeCast
  split_ifs with h himm
  · simp only [false_iff]; tauto
  · simp only [false_iff]; omega
  · obtain ⟨hkind, hwid⟩ := not_or.mp h
    simp_all

theorem decodeAppend_ok {cw : Word} {j : Instr} :
    decodeAppend cw = .ok j ↔
      immField cw = 0#16 ∧ legalWidth (widField cw) = true
        ∧ .bfAppend (Kind.ofCode (kindField cw)) (widField cw) = j := by
  unfold decodeAppend
  split_ifs with himm hwid
  · simp [himm]
  · simp [hwid]
  · simp_all

/-! ### Each format accepts exactly the words of its operations that R96 does not list -/

section Formats

variable {cw : Word} (hrsv : rsvOf cw = 0)
include hrsv

theorem decodeInit_accepts_iff (h : opField cw = 0x01#5) :
    (∃ i, decodeInit cw = .ok i) ↔ ¬ Illegal cw := by
  simp [decodeInit_ok, kindField_eq_zero, widField_eq_zero, Illegal, hrsv, opOf_of_opField h]

theorem decodeCast_accepts_iff (h : opField cw = 0x0D#5) :
    (∃ i, decodeCast cw = .ok i) ↔ ¬ Illegal cw := by
  simp [decodeCast_ok, kindField_eq_zero, widField_eq_zero, ← immOf_eq_toNat, Illegal, hrsv,
    opOf_of_opField h, and_assoc]

theorem decodeAppend_accepts_iff (h : opField cw = 0x02#5) :
    (∃ i, decodeAppend cw = .ok i) ↔ ¬ Illegal cw := by
  simp [decodeAppend_ok, immField_eq_zero, legalWidth_widField, Illegal, hrsv, opOf_of_opField h]

theorem decodeFormatF_accepts_iff {mk : Kind → BitVec 16 → BitVec 7 → Instr} {op : BitVec 5}
    (h : opField cw = op) (hop : op = 0x03#5 ∨ op = 0x04#5) :
    (∃ i, decodeFormatF mk cw = .ok i) ↔ ¬ Illegal cw := by
  rcases hop with rfl | rfl <;>
    simp [decodeFormatF_ok, legalWidth_widField, Illegal, hrsv, opOf_of_opField h]

theorem decodeFormatN_accepts_iff {i : Instr} {op : BitVec 5} (h : opField cw = op)
    (hop : op.toNat ∈ [0x08, 0x09, 0x0C, 0x10, 0x11, 0x14, 0x15, 0x16, 0x17]) :
    (∃ j, decodeFormatN i cw = .ok j) ↔ ¬ Illegal cw := by
  have hfields : Illegal cw ↔ kindOf cw ≠ 0 ∨ widOf cw ≠ 0 ∨ immOf cw ≠ 0 := by
    simp only [← opOf_of_opField h, List.mem_cons, List.not_mem_nil, or_false] at hop
    simp only [Illegal, List.mem_cons, List.not_mem_nil, or_false]
    omega
  simp [decodeFormatN_ok, kindField_eq_zero, widField_eq_zero, immField_eq_zero, hfields]

end Formats

/-- A word with a reserved bit set is on R96's list. -/
theorem illegal_of_reservedBitsSet {cw : Word} (h : rsvField cw ≠ 0#2) : Illegal cw := by
  rw [ne_eq, rsvField_eq_zero] at h
  simp [Illegal, h]

/-- An `op` that is none of the fourteen operations is on R96's list. -/
theorem illegal_of_unusedOperation {cw : Word}
    (h : opOf cw ∉ [0x01, 0x02, 0x03, 0x04, 0x08, 0x09, 0x0C, 0x0D, 0x10, 0x11, 0x14, 0x15, 0x16,
      0x17]) : Illegal cw := by
  simp only [List.mem_cons, List.not_mem_nil, or_false] at h
  simp only [Illegal, List.mem_cons, List.not_mem_nil, or_false]
  omega

/-- A choice accepts exactly under `p` when each branch does: one link of `decode`'s chain. -/
theorem accepts_ite_iff {c p : Prop} [Decidable c] {x y : Except IllegalWord Instr}
    (hx : c → ((∃ i, x = .ok i) ↔ p)) (hy : ¬ c → ((∃ i, y = .ok i) ↔ p)) :
    (∃ i, (if c then x else y) = .ok i) ↔ p :=
  iteInduction (motive := fun r : Except IllegalWord Instr => (∃ i, r = .ok i) ↔ p) hx hy

/-- The decoder accepts exactly the words that R96 does not list. -/
theorem decode_accepts_iff (cw : Word) : (∃ i, decode cw = .ok i) ↔ ¬ Illegal cw := by
  unfold decode
  refine accepts_ite_iff
    (fun h => iff_of_false (by simp) (not_not.mpr (illegal_of_reservedBitsSet h))) fun h => ?_
  have hrsv : rsvOf cw = 0 := rsvField_eq_zero.mp (not_not.mp h)
  refine accepts_ite_iff (decodeInit_accepts_iff hrsv) fun _ => ?_
  refine accepts_ite_iff (decodeAppend_accepts_iff hrsv) fun _ => ?_
  refine accepts_ite_iff (fun h => decodeFormatF_accepts_iff hrsv h (by decide)) fun _ => ?_
  refine accepts_ite_iff (fun h => decodeFormatF_accepts_iff hrsv h (by decide)) fun _ => ?_
  refine accepts_ite_iff (fun h => decodeFormatN_accepts_iff hrsv h (by decide)) fun _ => ?_
  refine accepts_ite_iff (fun h => decodeFormatN_accepts_iff hrsv h (by decide)) fun _ => ?_
  refine accepts_ite_iff (fun h => decodeFormatN_accepts_iff hrsv h (by decide)) fun _ => ?_
  refine accepts_ite_iff (decodeCast_accepts_iff hrsv) fun _ => ?_
  refine accepts_ite_iff (fun h => decodeFormatN_accepts_iff hrsv h (by decide)) fun _ => ?_
  refine accepts_ite_iff (fun h => decodeFormatN_accepts_iff hrsv h (by decide)) fun _ => ?_
  refine accepts_ite_iff (fun h => decodeFormatN_accepts_iff hrsv h (by decide)) fun _ => ?_
  refine accepts_ite_iff (fun h => decodeFormatN_accepts_iff hrsv h (by decide)) fun _ => ?_
  refine accepts_ite_iff (fun h => decodeFormatN_accepts_iff hrsv h (by decide)) fun _ => ?_
  refine accepts_ite_iff (fun h => decodeFormatN_accepts_iff hrsv h (by decide)) fun _ => ?_
  refine iff_of_false (by simp) (not_not.mpr (illegal_of_unusedOperation ?_))
  simp only [List.mem_cons, List.not_mem_nil, or_false, opOf_eq_toNat]
  bv_omega

namespace Machine

/-- A word the decoder rejects ends as a command that reports `E_ILLEGAL`, code 10. -/
theorem issueCommand_of_error {cw : Word} {e : IllegalWord} (h : decode cw = .error e)
    (s : State) : issueCommand cw s = .next { s with status := 10#8 } := by
  rw [issueCommand, h]
  rfl

/-- An illegal word ends as a command that reports `E_ILLEGAL`, everything else kept. -/
theorem issueCommand_of_illegal {cw : Word} (h : Illegal cw) (s : State) :
    issueCommand cw s = .next { s with status := 10#8 } := by
  cases hd : decode cw with
  | ok i => exact absurd h ((decode_accepts_iff cw).mp ⟨i, hd⟩)
  | error e => exact issueCommand_of_error hd s

/-- The all-zero word has `op` 0, which is no operation. -/
theorem illegal_zero : Illegal 0#32 := illegal_of_unusedOperation (by decide)

/-- Settles O4: the decoder accepts exactly the words that R96 does not list, and a word it rejects
is reported as `E_ILLEGAL` with nothing else written. -/
theorem illegalWordsRaiseIllegalAndNothingElse :
    Obligations.IllegalWordsRaiseIllegalAndNothingElse :=
  ⟨fun _ s h => issueCommand_of_illegal h s, illegal_zero,
    fun cw h => (decode_accepts_iff cw).mpr h⟩

end Machine

end Sys2Proof
end

section
/-!
The bitfield engine (spec/40_bitfield.md R131 to R145): how each command of it ends, written as an
equation with the whole next state, the single bits of the field it stores, and the number an
unpack delivers.
-/
namespace Sys2Proof

open Sys2Proof.Machine Sys2Proof.Claims

theorem legalWidth_iff {wid : BitVec 7} :
    legalWidth wid = true ↔ 1 ≤ wid.toNat ∧ wid.toNat ≤ 64 := by
  simp [legalWidth]

/-! ### The command words (R91, R94) -/

@[simp] theorem Kind.code_setWidth (k : Kind) : k.code.setWidth 32 = kindBits k := by
  cases k <;> rfl

theorem encode_bfInit_eq_or (n : BitVec 16) :
    encode (.bfInit n) = 0x08000000#32 ||| n.setWidth 32 := by
  simp [encode, assemble_eq_or]

theorem encode_bfAppend_eq_or (k : Kind) (wid : BitVec 7) :
    encode (.bfAppend k wid)
      = (0x10000000#32 ||| kindBits k <<< 25 ||| wid.setWidth 32 <<< 18) := by
  simp [encode, assemble_eq_or]

theorem encode_bfPack_eq_or (k : Kind) (off : BitVec 16) (wid : BitVec 7) :
    encode (.bfPack k off wid)
      = (0x18000000#32 ||| kindBits k <<< 25 ||| wid.setWidth 32 <<< 18 ||| off.setWidth 32) := by
  simp [encode, assemble_eq_or]

theorem encode_bfUnpack_eq_or (k : Kind) (off : BitVec 16) (wid : BitVec 7) :
    encode (.bfUnpack k off wid)
      = (0x20000000#32 ||| kindBits k <<< 25 ||| wid.setWidth 32 <<< 18 ||| off.setWidth 32) := by
  simp [encode, assemble_eq_or]

namespace Machine

/-! ### The stored field, bit by bit (R132) -/

/-- The model's stored value has the bits that R132 names. -/
@[simp] theorem fieldValue_getLsbD (k : Kind) (val : BitVec 64) (j : Nat) :
    (fieldValue k val).getLsbD j = storedBit k val j := by
  cases k with
  | unsigned => rfl
  | signed => rfl
  | enumerated => rfl
  | boolean => by_cases h : val = 0#64 <;> simp [fieldValue, storedBit, h, BitVec.getLsbD_one]

/-! ### How each command ends, with the whole next state -/

section Ends

variable {k : Kind} {off n : BitVec 16} {wid : BitVec 7} {s : State}

theorem exec_bfInit_of_lt (h : s.cfg.bcap < n.toNat) :
    exec (.bfInit n) s = .next { s with status := 9#8 } :=
  if_pos h

theorem exec_bfInit_of_le (h : n.toNat ≤ s.cfg.bcap) :
    exec (.bfInit n) s
      = .next { s with b := List.replicate n.toNat false, mvalid := false, status := 0#8 } :=
  if_neg (Nat.not_lt.mpr h)

theorem exec_bfAppend_of_lt (h : s.cfg.bcap < s.b.length + wid.toNat) :
    exec (.bfAppend k wid) s = .next { s with status := 9#8 } :=
  if_pos h

theorem exec_bfAppend_of_le (h : s.b.length + wid.toNat ≤ s.cfg.bcap) :
    exec (.bfAppend k wid) s
      = .next { s with b := s.b ++ fieldBits wid.toNat (fieldValue k s.val), mvalid := false,
                       status := 0#8 } :=
  if_neg (Nat.not_lt.mpr h)

theorem exec_bfPack_of_lt (h : s.b.length < off.toNat + wid.toNat) :
    exec (.bfPack k off wid) s = .next { s with status := 7#8 } :=
  if_pos h

theorem exec_bfPack_of_le (h : off.toNat + wid.toNat ≤ s.b.length) :
    exec (.bfPack k off wid) s
      = .next { s with b := bitWrite s.b off.toNat wid.toNat (fieldValue k s.val),
                       mvalid := false, status := 0#8 } :=
  if_neg (Nat.not_lt.mpr h)

theorem exec_bfUnpack_of_lt (h : s.b.length < off.toNat + wid.toNat) :
    exec (.bfUnpack k off wid) s = .next { s with status := 7#8 } :=
  if_pos h

/-- An unpack within the bits reads the sum of `BitRead` (R142). -/
theorem exec_bfUnpack_of_le (h : off.toNat + wid.toNat ≤ s.b.length) :
    exec (.bfUnpack k off wid) s
      = .next { s with res := extendValue k wid.toNat (fieldSum s.b off.toNat wid.toNat),
                       status := 0#8 } := by
  rw [fieldSum, ← bitRead_eq_sum s.b off.toNat wid.toNat h]
  exact if_neg (Nat.not_lt.mpr h)

end Ends

/-! ### The number of a field -/

theorem fieldSum_lt {b : Bits} {off w : Nat} (h : off + w ≤ b.length) :
    fieldSum b off w < 2 ^ w := by
  rw [fieldSum, ← bitRead_eq_sum b off w h]
  exact bitRead_lt b off w

/-- A field's number is not 0 exactly when one of its bits is 1. -/
theorem fieldSum_ne_zero_iff {b : Bits} {off w : Nat} :
    fieldSum b off w ≠ 0 ↔ ∃ i, i < w ∧ b[off + i]? = some true := by
  have hbit (j : Nat) : b[j]?.getD false = true ↔ b[j]? = some true := by
    cases b[j]? <;> simp
  simp [fieldSum, Finset.sum_eq_zero_iff, hbit]

/-! ### The extension of a field's number (R142 to R145) -/

section Extension

variable {k : Kind} {w u : Nat}

theorem extendValue_toNat_of_zeroExtended (hk : k = .unsigned ∨ k = .enumerated) (hw : w ≤ 64)
    (hu : u < 2 ^ w) : (extendValue k w u).toNat = u := by
  have hext : extendValue k w u = BitVec.ofNat 64 u := by rcases hk with rfl | rfl <;> rfl
  rw [hext, BitVec.toNat_ofNat]
  exact Nat.mod_eq_of_lt (hu.trans_le (Nat.pow_le_pow_right (by omega) hw))

theorem extendValue_signed_toInt (hw : 1 ≤ w ∧ w ≤ 64) (hu : u < 2 ^ w) :
    (extendValue .signed w u).toInt = toSigned w u :=
  toInt_ofInt_toSigned w u hw.1 hw.2 hu

theorem toSigned_eq_or (w u : Nat) : toSigned w u = u ∨ toSigned w u = (u : Int) - 2 ^ w := by
  unfold toSigned
  split_ifs
  · exact .inl rfl
  · exact .inr rfl

/-- A two's complement number and its field's number have the same bits. -/
theorem ofInt_toSigned (w u : Nat) : BitVec.ofInt w (toSigned w u) = BitVec.ofNat w u := by
  rcases toSigned_eq_or w u with h | h <;> rw [h]
  · exact BitVec.ofInt_natCast w u
  · apply BitVec.eq_of_toNat_eq
    simp only [BitVec.toNat_ofInt, BitVec.toNat_ofNat, Nat.cast_pow, Nat.cast_ofNat,
      Int.sub_emod_right]
    exact_mod_cast Int.toNat_natCast (u % 2 ^ w)

/-- A signed field of width 1 is 0 or minus 1 (R144). -/
theorem extendValue_signed_width_one (hu : u < 2 ^ 1) :
    extendValue .signed 1 u = 0#64 ∨ extendValue .signed 1 u = BitVec.allOnes 64 := by
  interval_cases u
  · exact .inl (by decide)
  · exact .inr (by decide)

/-- A signed field of width 64 is its own number (R144). -/
theorem extendValue_signed_width_64 (hu : u < 2 ^ 64) :
    (extendValue .signed 64 u).toNat = u := by
  rw [extendValue, ofInt_toSigned, BitVec.toNat_ofNat]
  exact Nat.mod_eq_of_lt hu

theorem extendValue_boolean_toNat (w u : Nat) :
    (extendValue .boolean w u).toNat = if u = 0 then 0 else 1 :=
  apply_ite BitVec.toNat ..

theorem extendValue_boolean_eq_or (w u : Nat) :
    extendValue .boolean w u = 0#64 ∨ extendValue .boolean w u = 1#64 := by
  unfold extendValue
  split_ifs
  · exact .inl rfl
  · exact .inr rfl

theorem extendValue_boolean_eq_one_iff (w : Nat) : extendValue .boolean w u = 1#64 ↔ u ≠ 0 := by
  simp [extendValue]

end Extension

/-! ### The statements -/

/-- Settles O11: the capacity check of R131 splits the two outcomes. -/
theorem initGivesZeroBits : Obligations.InitGivesZeroBits := fun n _ =>
  ⟨encode_bfInit_eq_or n, exec_bfInit_of_lt, fun h =>
    ⟨_, exec_bfInit_of_le h, List.length_replicate,
      fun _ hi => by simp [hi], rfl⟩⟩

/-- Settles O12: the capacity check of R133 splits the two outcomes, and an index is one of the old
bits or of the stored field. -/
theorem appendAddsTheFieldAtTheEnd : Obligations.AppendAddsTheFieldAtTheEnd := by
  refine fun k wid s _ => ⟨encode_bfAppend_eq_or k wid, exec_bfAppend_of_lt, fun h =>
    ⟨_, exec_bfAppend_of_le h, ?length, ?old, ?new, rfl⟩⟩
  case length => simp
  case old => exact fun i hi => List.getElem?_append_left hi
  case new =>
    intro i hi
    rw [List.getElem?_append_right (Nat.le_add_right ..), Nat.add_sub_cancel_left,
      fieldBits_getElem? _ _ _ hi, fieldValue_getLsbD]

/-- Settles O13: the bounds check of R135 splits the two outcomes, and an index is inside the
written field or outside it (`bitWrite_getElem?`). -/
theorem packWritesTheFieldOnly : Obligations.PackWritesTheFieldOnly := by
  refine fun k off wid s _ => ⟨encode_bfPack_eq_or k off wid, exec_bfPack_of_lt, fun h =>
    ⟨_, exec_bfPack_of_le h, bitWrite_length _ _ _ _ h, ?outside, ?inside, rfl⟩⟩
  case outside =>
    intro i hi
    exact (bitWrite_getElem? _ _ _ _ h i).trans (if_neg (by omega))
  case inside =>
    intro i hi
    rw [bitWrite_getElem? _ _ _ _ h, if_pos (by omega), Nat.add_sub_cancel_left,
      fieldValue_getLsbD]

/-- Settles O14: the bounds check of R142 splits the two outcomes, and each kind's extension keeps
the number it reads. -/
theorem unpackReadsTheField : Obligations.UnpackReadsTheField := by
  refine fun k off wid s hwid => ⟨encode_bfUnpack_eq_or k off wid, exec_bfUnpack_of_lt, fun h =>
    ⟨_, exec_bfUnpack_of_le h, ?zeroExtended, ?signed, ?boolean, rfl⟩⟩
  all_goals have hw := legalWidth_iff.mp hwid
  case zeroExtended => exact fun hk => extendValue_toNat_of_zeroExtended hk hw.2 (fieldSum_lt h)
  case signed =>
    rintro rfl
    exact extendValue_signed_toInt hw (fieldSum_lt h)
  case boolean =>
    rintro rfl
    exact extendValue_boolean_toNat wid.toNat _

/-- Settles O15: the value of each kind by its extension, and its range by the width of the field's
number. -/
theorem unpackedValueFitsItsWidth : Obligations.UnpackedValueFitsItsWidth := by
  refine fun k off wid s hwid h => ⟨_, exec_bfUnpack_of_le h, ?zeroExtended, ?signed, ?boolean⟩
  all_goals
    have hw := legalWidth_iff.mp hwid
    have hu := fieldSum_lt h
  case zeroExtended =>
    intro hk
    have hval := extendValue_toNat_of_zeroExtended hk hw.2 hu
    exact ⟨hval, hval.trans_lt hu⟩
  case signed =>
    rintro rfl
    have hval := extendValue_signed_toInt hw hu
    obtain ⟨hlow, hhigh⟩ := toSigned_range _ _ hw.1 hu
    refine ⟨?_, hval ▸ hlow, hval ▸ hhigh, ?_, ?_⟩
    · exact hval ▸ toSigned_eq_or _ _
    · rintro rfl
      exact extendValue_signed_width_one hu
    · rintro rfl
      exact extendValue_signed_width_64 hu
  case boolean =>
    rintro rfl
    exact ⟨extendValue_boolean_eq_or wid.toNat _,
      (extendValue_boolean_eq_one_iff wid.toNat).trans fieldSum_ne_zero_iff⟩

end Machine

end Sys2Proof
end

section
/-!
The armor codec (spec/41_armor.md R162 to R168): the characters of an armored text as the number of
the bits they stand for, and how each command of the codec ends, written as an equation with the
whole next state.
-/
namespace Sys2Proof

open Sys2Proof.Machine Sys2Proof.Claims

/-! ### The command words (R91, R94) -/

theorem encode_armEnc : encode .armEnc = 0x40000000#32 := by decide

theorem encode_armDec : encode .armDec = 0x48000000#32 := by decide

namespace Machine

/-! ### The padded bits and their characters (R162) -/

/-- Padding with zero bits changes the number of no field: a bit beyond the end counts as 0. -/
theorem fieldSum_append_replicate_false (b : Bits) (n off w : Nat) :
    fieldSum (b ++ List.replicate n false) off w = fieldSum b off w := by
  have hbit (i : Nat) : (b ++ List.replicate n false).getD i false = b.getD i false := by
    by_cases hi : i < b.length
    · exact List.getD_append _ _ _ _ hi
    · have hi' : b.length ≤ i := Nat.le_of_not_lt hi
      rw [List.getD_append_right _ _ _ _ hi', List.getD_eq_default _ _ hi',
        List.getD_eq_getElem?_getD, List.getElem?_getD_replicate_default_eq]
  simp only [fieldSum, hbit]

@[simp] theorem armorText_length (b : Bits) :
    (armorText b).length = (b.length + padBits b.length) / 6 := by
  simp [armorText]

/-- Character `j` of an armored text stands for the number of the six bits at `6 * j`. -/
theorem armorText_getElem? {b : Bits} {j : Nat} (hj : j < (armorText b).length) :
    (armorText b)[j]? = some (enc6 (BitVec.ofNat 6 (fieldSum b (6 * j) 6))) := by
  have hgroup : 6 * j + 6 ≤ (b ++ List.replicate (padBits b.length) false).length := by
    rw [armorText_length] at hj
    simp only [List.length_append, List.length_replicate]
    omega
  rw [armorText, armorGroups_getElem? _ _ hgroup, bitRead_eq_sum _ _ _ hgroup, ← fieldSum,
    fieldSum_append_replicate_false]

/-- The number of padding bits fits the three bits of `FILL`. -/
theorem ofNat_padBits_toNat (n : Nat) : (BitVec.ofNat 3 (padBits n)).toNat = padBits n :=
  Nat.mod_eq_of_lt ((padBits_lt n).trans (by decide))

/-! ### How `ARM.ENC` ends, with the whole next state (R162) -/

theorem exec_armEnc_of_lt {s : State} (h : s.cfg.tcap < (s.b.length + padBits s.b.length) / 6) :
    exec .armEnc s = .next { s with status := 9#8 } :=
  if_pos h

theorem exec_armEnc_of_le {s : State} (h : (s.b.length + padBits s.b.length) / 6 ≤ s.cfg.tcap) :
    exec .armEnc s
      = .next { s with t := armorText s.b, fill := BitVec.ofNat 3 (padBits s.b.length),
                       status := 0#8 } :=
  if_neg (Nat.not_lt.mpr h)

/-! ### How `ARM.DEC` ends, with the whole next state (R165) -/

theorem exec_armDec_of_fill {s : State} (h : 5 < s.fill.toNat) :
    exec .armDec s = .next { s with status := 6#8 } :=
  if_pos h

section Decoding

variable {s : State} {bits : Bits} (hfill : s.fill.toNat ≤ 5)
include hfill

theorem exec_armDec_of_capacity (h : s.cfg.bcap < 6 * s.t.length) :
    exec .armDec s = .next { s with status := 9#8 } := by
  rw [exec, execArmDec, if_neg (Nat.not_lt.mpr hfill)]
  exact if_pos h

variable (hcap : 6 * s.t.length ≤ s.cfg.bcap)
include hcap

theorem exec_armDec_of_none (h : armorBits s.t = none) :
    exec .armDec s = .next { s with status := 1#8 } := by
  rw [exec, execArmDec, if_neg (Nat.not_lt.mpr hfill), if_neg (Nat.not_lt.mpr hcap), h]
  rfl

theorem exec_armDec_of_lt (h : armorBits s.t = some bits) (hlt : 6 * s.t.length < s.fill.toNat) :
    exec .armDec s = .next { s with status := 1#8 } := by
  rw [exec, execArmDec, if_neg (Nat.not_lt.mpr hfill), if_neg (Nat.not_lt.mpr hcap), h]
  exact if_pos hlt

theorem exec_armDec_of_le (h : armorBits s.t = some bits) (hle : s.fill.toNat ≤ 6 * s.t.length) :
    exec .armDec s
      = .next { s with b := bits.take (6 * s.t.length - s.fill.toNat), mvalid := false,
                       status := 0#8 } := by
  rw [exec, execArmDec, if_neg (Nat.not_lt.mpr hfill), if_neg (Nat.not_lt.mpr hcap), h]
  exact if_neg (Nat.not_lt.mpr hle)

end Decoding

/-! ### The statements -/

/-- Settles O20: the capacity check of R162 splits the two outcomes, and a padding bit adds nothing
to the number of its group. -/
theorem encodeArmorsEveryGroup : Obligations.EncodeArmorsEveryGroup := fun s =>
  ⟨encode_armEnc, exec_armEnc_of_lt, fun h =>
    ⟨_, exec_armEnc_of_le h, armorText_length s.b, fun _ => armorText_getElem?,
      ofNat_padBits_toNat s.b.length, rfl⟩⟩

/-- Settles O21: one outcome for each check of R165 in its order, and on success the kept bits are
those of the decoded characters (`armorBits_spec`). -/
theorem decodeArmorBitByBit : Obligations.DecodeArmorBitByBit := by
  refine fun s => ⟨encode_armDec, exec_armDec_of_fill, exec_armDec_of_capacity, ?illegalChar,
    ?shortText, ?success⟩
  case illegalChar =>
    exact fun hfill hcap hchar => exec_armDec_of_none hfill hcap (armorBits_eq_none hchar)
  all_goals
    intro hfill hcap hchars hlen
    obtain ⟨bits, hbits, hlength, hbit⟩ := armorBits_spec s.t hchars
  case shortText => exact exec_armDec_of_lt hfill hcap hbits hlen
  case success =>
    refine ⟨_, exec_armDec_of_le hfill hcap hbits hlen, ?_, fun i hi => ?_, rfl⟩
    · simp [hlength]
    · obtain ⟨hkept, hi'⟩ := lt_min_iff.mp (List.length_take ▸ hi)
      simpa only [List.getElem?_take_of_lt hkept] using hbit i hi'

end Machine

end Sys2Proof
end

section
/-!
The AIS type dispatcher (spec/42_ais_dispatch.md R180 to R187): the entries of the message registry
that every configuration has, the type ID as a number, and how each command of the dispatcher ends,
written as an equation with the whole next state.
-/
namespace Sys2Proof

open Sys2Proof.Machine Sys2Proof.Claims

/-! ### The command words (R91, R94) -/

theorem encode_aisDispatch : encode .aisDispatch = 0x60000000#32 := by decide

theorem encode_aisCast_eq_or (id : BitVec 6) :
    encode (.aisCast id) = 0x68000000#32 ||| id.setWidth 32 := by
  simp [encode, assemble_eq_or]

/-! ### The registry entries that every configuration has (R180) -/

namespace Config

variable (c : Config) {tid : BitVec 6}

theorem msgReg_of_toNat_eq_1_2_3 (h : tid.toNat = 1 ∨ tid.toNat = 2 ∨ tid.toNat = 3) :
    c.msgReg tid = some ⟨168#10, 168#10⟩ :=
  if_pos (by bv_omega)

theorem msgReg_of_toNat_eq_19 (h : tid.toNat = 19) : c.msgReg tid = some ⟨312#10, 312#10⟩ := by
  obtain rfl : tid = 19#6 := BitVec.eq_of_toNat_eq h
  rfl

theorem msgReg_of_unregistrable (h : tid.toNat = 0 ∨ 28 ≤ tid.toNat) : c.msgReg tid = none := by
  rw [msgReg, if_neg (by bv_omega), if_neg (by bv_omega), if_pos (by bv_omega)]

end Config

namespace Machine

/-! ### The type ID as a number (R181) -/

theorem typeId_toNat {b : Bits} (h : 6 ≤ b.length) : (typeId b).toNat = fieldSum b 0 6 := by
  rw [typeId, BitVec.toNat_ofNat, Nat.mod_eq_of_lt (bitRead_lt b 0 6), bitRead_eq_sum b 0 6 h,
    fieldSum]

theorem eq_typeId {b : Bits} {tid : BitVec 6} (h : 6 ≤ b.length)
    (htid : tid.toNat = fieldSum b 0 6) : tid = typeId b :=
  BitVec.eq_of_toNat_eq (htid.trans (typeId_toNat h).symm)

theorem sizeFits_iff {r : SizeRange} {n : Nat} :
    sizeFits r n = true ↔ r.min.toNat ≤ n ∧ n ≤ r.max.toNat := by
  simp [sizeFits]

/-- A length fits one declared size exactly when it is that size (R184). -/
theorem sizeFits_iff_of_min_eq_max {r : SizeRange} {n : Nat} (hr : r.min = r.max) :
    sizeFits r n = true ↔ n = r.min.toNat := by
  rw [sizeFits_iff, ← hr]
  omega

/-! ### How `AIS.DISPATCH` ends, with the whole next state (R182) -/

theorem exec_aisDispatch_of_lt {s : State} (h : s.b.length < 6) :
    exec .aisDispatch s = .next { s with mvalid := false, status := 7#8 } :=
  if_pos h

section Dispatching

variable {s : State} {r : SizeRange} (hlen : 6 ≤ s.b.length)
include hlen

theorem exec_aisDispatch_of_none (hreg : s.cfg.msgReg (typeId s.b) = none) :
    exec .aisDispatch s
      = .next { s with mvalid := false, mtype := typeId s.b, status := 4#8 } := by
  rw [exec, execAisDispatch, if_neg (Nat.not_lt.mpr hlen), dispatchType, hreg]
  rfl

variable (hreg : s.cfg.msgReg (typeId s.b) = some r)
include hreg

theorem exec_aisDispatch_of_not_fits (h : ¬ sizeFits r s.b.length) :
    exec .aisDispatch s
      = .next { s with mvalid := false, mtype := typeId s.b, mmin := r.min, mmax := r.max,
                       status := 5#8 } := by
  rw [exec, execAisDispatch, if_neg (Nat.not_lt.mpr hlen), dispatchType, hreg]
  exact if_pos (Bool.eq_false_of_not_eq_true h)

theorem exec_aisDispatch_of_fits (h : sizeFits r s.b.length) :
    exec .aisDispatch s
      = .next { s with mvalid := true, mtype := typeId s.b, mmin := r.min, mmax := r.max,
                       status := 0#8 } := by
  rw [exec, execAisDispatch, if_neg (Nat.not_lt.mpr hlen), dispatchType, hreg]
  exact if_neg (by simp [h])

section Registered

variable {t : State} (hexec : exec .aisDispatch s = .next t)
include hexec

/-- The two ways the dispatch of a registered type ends: within its size, or outside it (R184). -/
theorem aisDispatch_registered_cases :
    (sizeFits r s.b.length ∧ t.status = 0#8 ∧ t.mvalid = true)
      ∨ (¬ sizeFits r s.b.length ∧ t.status = 5#8 ∧ t.mvalid = false) := by
  by_cases hfits : sizeFits r s.b.length
  · obtain rfl := Host.Outcome.next.inj
      ((exec_aisDispatch_of_fits hlen hreg hfits).symm.trans hexec)
    exact .inl ⟨hfits, rfl, rfl⟩
  · obtain rfl := Host.Outcome.next.inj
      ((exec_aisDispatch_of_not_fits hlen hreg hfits).symm.trans hexec)
    exact .inr ⟨hfits, rfl, rfl⟩

theorem aisDispatch_status_ok_iff : t.status = 0#8 ↔ sizeFits r s.b.length := by
  obtain ⟨hfits, hstatus, -⟩ | ⟨hfits, hstatus, -⟩ := aisDispatch_registered_cases hlen hreg hexec
  all_goals simp [hstatus, hfits]

theorem aisDispatch_status_sizeMismatch_iff : t.status = 5#8 ↔ ¬ sizeFits r s.b.length := by
  obtain ⟨hfits, hstatus, -⟩ | ⟨hfits, hstatus, -⟩ := aisDispatch_registered_cases hlen hreg hexec
  all_goals simp [hstatus, hfits]

/-- A type of one declared size passes exactly at that size (R184). -/
theorem aisDispatch_fixedSize (hr : r.min = r.max) :
    (t.status = 0#8 ∧ t.mvalid = true ↔ s.b.length = r.min.toNat)
      ∧ (s.b.length ≠ r.min.toNat → t.status = 5#8 ∧ t.mvalid = false) := by
  rw [ne_eq, ← sizeFits_iff_of_min_eq_max hr]
  obtain ⟨hfits, hstatus, hvalid⟩ | ⟨hfits, hstatus, hvalid⟩ :=
    aisDispatch_registered_cases hlen hreg hexec
  all_goals simp [hstatus, hvalid, hfits]

end Registered

end Dispatching

/-! ### How `AIS.CAST` ends, with the whole next state (R187) -/

theorem exec_aisCast_of_dispatched {id : BitVec 6} {s : State}
    (h : s.mvalid = true ∧ s.mtype = id) :
    exec (.aisCast id) s = .next { s with res := 1#64, status := 0#8 } := by
  rw [exec, execAisCast, if_pos h]
  rfl

theorem exec_aisCast_of_not_dispatched {id : BitVec 6} {s : State}
    (h : ¬ (s.mvalid = true ∧ s.mtype = id)) :
    exec (.aisCast id) s = .next { s with res := 0#64, status := 0#8 } := by
  rw [exec, execAisCast, if_neg h]
  rfl

/-! ### The statements -/

/-- Settles O26: the status of a registered type tells whether its length fits, and types 1, 2, 3
and 19 are registered with one size under every configuration. -/
theorem registeredTypesPassExactlyInTheirSize :
    Obligations.RegisteredTypesPassExactlyInTheirSize := by
  intro s hlen
  obtain ⟨t, hexec⟩ := exec_answers .aisDispatch s
  have htype := typeId_toNat hlen
  refine ⟨t, hexec, ?registered, fun h => ?position, fun h => ?type19⟩
  case registered =>
    intro tid r htid hreg
    obtain rfl := eq_typeId hlen htid
    have hok := aisDispatch_status_ok_iff hlen hreg hexec
    refine ⟨hok.trans sizeFits_iff, ?_, fun hr => hok.trans (sizeFits_iff_of_min_eq_max hr)⟩
    rw [aisDispatch_status_sizeMismatch_iff hlen hreg hexec, sizeFits_iff]
    omega
  case position =>
    exact aisDispatch_fixedSize hlen (s.cfg.msgReg_of_toNat_eq_1_2_3 (htype ▸ h)) hexec rfl
  case type19 =>
    exact aisDispatch_fixedSize hlen (s.cfg.msgReg_of_toNat_eq_19 (htype.trans h)) hexec rfl

/-- Settles O25: one outcome for each check of R182 in its order. -/
theorem dispatchReportsTypeAndSize : Obligations.DispatchReportsTypeAndSize := by
  refine fun s => ⟨encode_aisDispatch, exec_aisDispatch_of_lt, fun hlen tid htid => ?_⟩
  obtain rfl := eq_typeId hlen htid
  refine ⟨exec_aisDispatch_of_none hlen, fun r hreg =>
    ⟨fun hout => ?outside, fun hmin hmax => ?within⟩⟩
  case outside => exact exec_aisDispatch_of_not_fits hlen hreg (by rw [sizeFits_iff]; omega)
  case within => exact exec_aisDispatch_of_fits hlen hreg (sizeFits_iff.mpr ⟨hmin, hmax⟩)

/-- Settles O27: types 0 and 28 to 63 are unregistered under every configuration. -/
theorem unregisteredTypesAreUnknown : Obligations.UnregisteredTypesAreUnknown := by
  intro s tid hlen htid h
  have hreg : s.cfg.msgReg tid = none := by
    obtain h | h | h := h
    · exact s.cfg.msgReg_of_unregistrable (.inl h)
    · exact s.cfg.msgReg_of_unregistrable (.inr h)
    · exact h
  obtain rfl := eq_typeId hlen htid
  exact exec_aisDispatch_of_none hlen hreg

/-- Settles O28: the test of R187 splits the two outcomes. -/
theorem castTestsTheDispatchedType : Obligations.CastTestsTheDispatchedType := fun id s =>
  ⟨encode_aisCast_eq_or id, fun hvalid htype => exec_aisCast_of_dispatched ⟨hvalid, htype⟩,
    fun h => exec_aisCast_of_not_dispatched fun ⟨hvalid, htype⟩ =>
      h.elim (by simp [hvalid]) (absurd htype)⟩

end Machine

end Sys2Proof
end

section
/-!
The sentence envelope (spec/43_nmea.md R201 to R218): the model's checks on a line in the words of
the statements, the outcome of the registry check (R211, R212), and how `NMEA.PARSE` and
`NMEA.RENDER` end, written as an equation with the whole next state.
-/
namespace Sys2Proof

open Sys2Proof.Machine Sys2Proof.Claims

/-! ### The command word (R91, R94) -/

theorem encode_nmeaRender : encode .nmeaRender = 0x88000000#32 := by decide

namespace Machine

/-! ### The checks and the line in the words of the statements (R201 to R203, R208, R216) -/

theorem isStartToken_iff {c : Byte} : isStartToken c = true ↔ StartToken c := by
  simp [isStartToken]

theorem addressRenders_iff {talker tag : Text} :
    addressRenders talker tag = true ↔ AddressShape talker tag := by
  unfold addressRenders
  split_ifs with hzero htwo
  · simp [AddressShape, List.eq_nil_of_length_eq_zero hzero]
  all_goals
    have hne : talker ≠ [] := fun h => hzero (by simp [h])
    simp [AddressShape, hne, htwo]

theorem Sentence.plain_iff {x : Sentence} : x.plain ↔ PlainSentence x := by
  simp only [Sentence.plain, plainText_iff]

theorem plainText_all_iff {x : Sentence} :
    (plainText x.talker && plainText x.tag && x.fields.all plainText) = true ↔ PlainSentence x := by
  simp only [Bool.and_eq_true, and_assoc, List.all_eq_true, plainText_iff]

theorem xor8_eq_xorAll (x : Text) : xor8 x = xorAll x := by
  have hfold (x : Text) (acc : Byte) : x.foldl (· ^^^ ·) acc = acc ^^^ xor8 x := by
    induction x generalizing acc with
    | nil => simp [xor8]
    | cons c x ih => rw [List.foldl_cons, ih, xor8, BitVec.xor_assoc]
  rw [xorAll, hfold, BitVec.zero_xor]

theorem hex2_eq_hexUpper (v : Byte) : hex2 v = hexUpper v := by
  revert v; decide

theorem fieldsText_eq_flatMap (fs : List Text) :
    fieldsText fs = fs.flatMap (fun f => 0x2C#8 :: f) := by
  induction fs with
  | nil => rfl
  | cons f fs ih => simp [fieldsText, ih]

theorem lineBody_eq_spanOf (x : Sentence) : lineBody x = spanOf x := by
  rw [lineBody, spanOf, fieldsText_eq_flatMap]

theorem lineText_eq_lineOf (x : Sentence) : lineText x.start (lineBody x) = lineOf x := by
  rw [lineText, lineOf, lineBody_eq_spanOf, hex2_eq_hexUpper, xor8_eq_xorAll]

/-! ### The carrier grammar (R241) -/

theorem countField_iff_countText {f : Text} {n : BitVec 8} :
    countField f = some n ↔ CountText f n := by
  simp only [countField_eq_some, decNumber_eq_some, CountText, digitsValue, and_assoc,
    exists_and_left, exists_eq_left]

theorem seqField_iff_seqText {f : Text} {present : Bool} {n : BitVec 4} :
    seqField f = some (present, n) ↔ SeqText f present n :=
  seqField_eq_some

theorem chanField_iff_chanText {f : Text} {present : Bool} {chan : Byte} :
    chanField f = some (present, chan) ↔ ChanText f present chan :=
  chanField_eq_some

theorem fillField_iff_fillText {f : Text} {n : BitVec 3} :
    fillField f = some n ↔ FillText f n :=
  fillField_eq_some

theorem carrierFields_iff_grammar {fields : List Text} {c : Carrier} :
    carrierFields fields = some c ↔ CarrierGrammar fields c := by
  simp only [carrierFields_eq_some, CarrierGrammar, countField_iff_countText,
    seqField_iff_seqText, chanField_iff_chanText, fillField_iff_fillText]

theorem carrierFields_eq_none_iff {fields : List Text} :
    carrierFields fields = none ↔ ∀ c, ¬ CarrierGrammar fields c := by
  simp only [Option.eq_none_iff_forall_ne_some, ne_eq, carrierFields_iff_grammar]

/-! ### The registry check (R211, R212) -/

section Registry

variable {cfg : Config} {tag : Text} {fields : List Text}

theorem tagReg_of_isCarrier (h : cfg.isCarrier tag = true) : cfg.tagReg tag = some 6 :=
  if_pos h

theorem checkTag_of_unregistered (h : cfg.tagReg tag = none) :
    checkTag cfg tag fields = .error .unknownSentence := by
  rw [checkTag, h]

theorem checkTag_of_wrong_count {n : Nat} (h : cfg.tagReg tag = some n) (hn : fields.length ≠ n) :
    checkTag cfg tag fields = .error .format := by
  rw [checkTag, h]
  exact if_pos hn

/-- A carrier tag with fields outside the grammar: a wrong count and a wrong field end alike. -/
theorem checkTag_of_not_grammar (h : cfg.isCarrier tag = true)
    (hg : ∀ c, ¬ CarrierGrammar fields c) : checkTag cfg tag fields = .error .format := by
  have hreg := tagReg_of_isCarrier h
  by_cases hn : fields.length = 6
  · simp [checkTag, hreg, hn, h, carrierFields_eq_none_iff.mpr hg]
  · exact checkTag_of_wrong_count hreg hn

theorem checkTag_passes (hreg : cfg.tagReg tag = some fields.length)
    (hg : cfg.isCarrier tag = true → ∃ c, CarrierGrammar fields c) :
    ∃ carr, checkTag cfg tag fields = .ok carr := by
  cases hc : cfg.isCarrier tag with
  | false => exact ⟨none, checkTag_ok.mpr ⟨hreg, .inr ⟨hc, rfl⟩⟩⟩
  | true =>
    obtain ⟨c, hgram⟩ := hg hc
    exact ⟨some c, checkTag_ok.mpr ⟨hreg, .inl ⟨hc, c, carrierFields_iff_grammar.mpr hgram, rfl⟩⟩⟩

end Registry

/-! ### The status word (R28) -/

theorem statusWord_eq_zero {code : BitVec 4} : statusWord code = 0#8 ↔ code = 0#4 := by
  revert code; decide

/-! ### How a parse of a line fails (R205 to R207, R211, R212) -/

section Parsing

variable {cfg : Config}

theorem parseLine_of_no_startToken {t : Text} (h : ∀ c, t.head? = some c → ¬ StartToken c) :
    parseLine cfg t = .error (.plain .format) := by
  cases t with
  | nil => rfl
  | cons c rest =>
    have hc : isStartToken c = false :=
      Bool.eq_false_of_not_eq_true (mt isStartToken_iff.mp (h c rfl))
    exact if_pos hc

theorem hexValue_eq_none {c : Byte} (h : c ∉ hexAlphabet) : hexValue c = none := by
  revert c; decide

theorem checksumWindow_of_no_star {start : Byte} {rest : Text} (h : Ascii.star ∉ rest) :
    checksumWindow (start :: rest) = none := by
  rw [checksumWindow, find_star_none h]

theorem checksumWindow_of_bad_window {start : Byte} {span window : Text} (h : Ascii.star ∉ span)
    (hw : window.length ≠ 2 ∨ ∃ c ∈ window, c ∉ hexAlphabet) :
    checksumWindow (start :: (span ++ Ascii.star :: window)) = none := by
  rw [checksumWindow_cut h]
  match window with
  | [] | [_] | _ :: _ :: _ :: _ => rfl
  | [a, b] =>
    simp only [List.length_cons, List.length_nil, ne_eq, not_true_eq_false, false_or,
      List.mem_cons, List.not_mem_nil, or_false, exists_eq_or_imp, exists_eq_left] at hw
    obtain ha | hb := hw
    · simp [hexValue_eq_none ha]
    · cases hexValue a <;> simp [hexValue_eq_none hb]

theorem nibbles_append (v : Byte) : v.extractLsb' 4 4 ++ v.extractLsb' 0 4 = v := by
  revert v; decide

theorem parseLine_of_wrong_checksum {start rx : Byte} {span : Text} (hs : StartToken start)
    (h : Ascii.star ∉ span) (hx : rx ≠ xorAll span) :
    parseLine cfg (start :: (span ++ Ascii.star :: hexUpper rx))
      = .error (.checksum rx (xorAll span)) := by
  rw [← hex2_eq_hexUpper, hex2, parseLine_cut (isStartToken_iff.mpr hs) h (hexValue_hexDigit _)
    (hexValue_hexDigit _), nibbles_append, xor8_eq_xorAll, if_pos hx]

end Parsing

/-- A well-shaped line fails as its tag and fields fail in the registry. -/
theorem parseLine_lineOf_error {cfg : Config} {x : Sentence} {e : Err} (hs : StartToken x.start)
    (ha : AddressShape x.talker x.tag) (hp : PlainSentence x)
    (h : checkTag cfg x.tag x.fields = .error e) :
    parseLine cfg (lineOf x) = .error (.plain e) := by
  rw [← lineText_eq_lineOf, parseLine_lineText (isStartToken_iff.mpr hs)
    (addressRenders_iff.mpr ha) (Sentence.plain_iff.mpr hp), h]

/-! ### How `NMEA.PARSE` ends in an error, with the whole next state (R204) -/

theorem exec_nmeaParse_of_plain {s : State} {e : Err}
    (h : parseLine s.cfg s.t = .error (.plain e)) :
    exec .nmeaParse s = .next { s with cvalid := false, status := statusWord e.code } := by
  rw [exec, execNmeaParse, h]
  rfl

theorem exec_nmeaParse_of_checksum {s : State} {rx computed : Byte}
    (h : parseLine s.cfg s.t = .error (.checksum rx computed)) :
    exec .nmeaParse s
      = .next ({ s with cvalid := false, status := 2#8 }.setChecksums rx computed) := by
  rw [exec, execNmeaParse, h]
  rfl

/-! ### How `NMEA.RENDER` ends, with the whole next state (R216) -/

section Rendering

variable {s : State}

/-- Steps 1 to 3: whichever fails, the error is the same. -/
theorem renderLine_of_malformed {cfg : Config} {x : Sentence}
    (h : ¬ (StartToken x.start ∧ AddressShape x.talker x.tag ∧ PlainSentence x)) :
    renderLine cfg x = .error .valueRange := by
  rw [← isStartToken_iff, ← addressRenders_iff, ← plainText_all_iff] at h
  unfold renderLine
  split_ifs with hs ha hp
  · rfl
  · rfl
  · rfl
  all_goals
    simp only [Bool.not_eq_false] at hs ha hp
    exact absurd ⟨hs, ha, hp⟩ h

/-- Steps 4 to 7, of a sentence that passes the first three. -/
theorem renderLine_of_wellFormed {cfg : Config} {x : Sentence} (hs : StartToken x.start)
    (ha : AddressShape x.talker x.tag) (hp : PlainSentence x) :
    renderLine cfg x =
      (checkTag cfg x.tag x.fields).bind fun _ =>
        if cfg.tcap < 1 + (spanOf x).length + 3 then .error .capacity else .ok (lineOf x) := by
  simp only [renderLine, isStartToken_iff.mpr hs, addressRenders_iff.mpr ha,
    plainText_all_iff.mpr hp, Bool.true_eq_false, if_false, lineText_eq_lineOf,
    congrArg List.length (lineBody_eq_spanOf x)]
  cases checkTag cfg x.tag x.fields <;> rfl

theorem exec_nmeaRender_of_error {e : Err} (h : renderLine s.cfg s.sent = .error e) :
    exec .nmeaRender s = .next { s with status := statusWord e.code } := by
  rw [exec, execNmeaRender, h]
  rfl

theorem exec_nmeaRender_of_ok {line : Text} (h : renderLine s.cfg s.sent = .ok line) :
    exec .nmeaRender s = .next { s with t := line, status := 0#8 } := by
  rw [exec, execNmeaRender, h]
  rfl

/-- A render that ends `OK` found a start token and no delimiter in the sentence registers, and
has written their line. -/
theorem exec_nmeaRender_ok {t : State} (h : exec .nmeaRender s = .next t) (hok : t.status = 0#8) :
    StartToken s.sent.start ∧ PlainSentence s.sent ∧ t.t = lineOf s.sent := by
  cases hline : renderLine s.cfg s.sent with
  | error e =>
    obtain rfl := Host.Outcome.next.inj ((exec_nmeaRender_of_error hline).symm.trans h)
    have he : e.code = 0#4 := statusWord_eq_zero.mp hok
    exact (renderLine_ne_ok ((Err.code_eq_zero e).mp he ▸ hline)).elim
  | ok line =>
    obtain rfl := Host.Outcome.next.inj ((exec_nmeaRender_of_ok hline).symm.trans h)
    obtain ⟨hstart, -, hplain, -, -, rfl⟩ := renderLine_ok.mp hline
    exact ⟨isStartToken_iff.mp hstart, Sentence.plain_iff.mp hplain, lineText_eq_lineOf s.sent⟩

end Rendering

/-! ### The commas of a line (R218) -/

theorem count_comma_fields {fs : List Text} (h : ∀ f ∈ fs, 0x2C#8 ∉ f) :
    (fs.flatMap (fun f => 0x2C#8 :: f)).count 0x2C#8 = fs.length := by
  induction fs with
  | nil => rfl
  | cons f fs ih =>
    obtain ⟨hf, hfs⟩ := List.forall_mem_cons.mp h
    simp [List.count_append, List.count_eq_zero_of_not_mem hf, ih hfs]

theorem comma_not_mem_hexUpper (v : Byte) : 0x2C#8 ∉ hexUpper v := by
  revert v; decide

theorem count_comma_lineOf {x : Sentence} (hs : StartToken x.start) (hp : PlainSentence x) :
    (lineOf x).count 0x2C#8 = x.fields.length := by
  obtain ⟨⟨htalker, -⟩, ⟨htag, -⟩, hfields⟩ := hp
  have hstart : x.start ≠ 0x2C#8 := by rintro h; rw [h] at hs; exact absurd hs (by decide)
  simp [lineOf, spanOf, List.count_append, hstart,
    List.count_eq_zero_of_not_mem htalker, List.count_eq_zero_of_not_mem htag,
    count_comma_fields fun f hf => (hfields f hf).1,
    List.count_eq_zero_of_not_mem (comma_not_mem_hexUpper _)]

/-! ### The statements -/

/-- Settles O31: the field readers of the model take exactly the texts of R241, and a well-shaped
line ends as the registry check of its tag and fields does. -/
theorem parseRefusesUnknownTagThenCount : Obligations.ParseRefusesUnknownTagThenCount := by
  refine ⟨fun fields => ⟨fun c => carrierFields_iff_grammar, carrierFields_eq_none_iff⟩,
    fun s x hs ha hp ht => ?_⟩
  have hexec {e : Err} (h : checkTag s.cfg x.tag x.fields = .error e) :
      exec .nmeaParse s = .next { s with cvalid := false, status := statusWord e.code } :=
    exec_nmeaParse_of_plain (ht ▸ parseLine_lineOf_error hs ha hp h)
  exact ⟨fun hreg => hexec (checkTag_of_unregistered hreg),
    fun n hreg hn => hexec (checkTag_of_wrong_count hreg hn),
    fun hc hg => hexec (checkTag_of_not_grammar hc hg)⟩

/-- Settles O32. -/
theorem parseNeedsAStartToken : Obligations.ParseNeedsAStartToken := fun _ h =>
  exec_nmeaParse_of_plain (parseLine_of_no_startToken h)

/-- Settles O33: without a delimiter, or without two digits after the first one, the line has no
checksum window. -/
theorem parseNeedsAChecksumWindow : Obligations.ParseNeedsAChecksumWindow := by
  intro s start hs
  have hexec {rest : Text} (ht : s.t = start :: rest)
      (h : checksumWindow (start :: rest) = none) :
      exec .nmeaParse s = .next { s with cvalid := false, status := 1#8 } :=
    exec_nmeaParse_of_plain (ht ▸ parseLine_bad_window (isStartToken_iff.mpr hs) h)
  exact ⟨fun rest ht hstar => hexec ht (checksumWindow_of_no_star hstar),
    fun span window ht hstar hw => hexec ht (checksumWindow_of_bad_window hstar hw)⟩

/-- Settles O34: the parse compares the checksums before it looks at the address, and the two bytes
of `CSINFO` read back as they were written. -/
theorem parseReportsBothChecksums : Obligations.ParseReportsBothChecksums :=
  fun _ _ rx span hs hstar ht hx =>
    ⟨_, exec_nmeaParse_of_checksum (ht ▸ parseLine_of_wrong_checksum hs hstar hx),
      State.setChecksums_csRx rx (xorAll span) _, State.setChecksums_csCalc rx (xorAll span) _, rfl⟩

/-- Settles O37: the first three checks share their error; after them the render ends as the
registry check does, or by the capacity. -/
theorem renderWritesTheLineOfTheRegisters : Obligations.RenderWritesTheLineOfTheRegisters := by
  intro s
  refine ⟨encode_nmeaRender, fun h => ?start, fun h => ?address, fun h => ?plain,
    fun hs ha hp => ⟨fun hreg => ?unknown, fun n hreg => ⟨fun hn => ?count,
      fun _ hc hg => ?carrier, fun hn hg => ?passes⟩⟩⟩
  case start => exact exec_nmeaRender_of_error (renderLine_of_malformed fun ⟨hs, _, _⟩ => h hs)
  case address => exact exec_nmeaRender_of_error (renderLine_of_malformed fun ⟨_, ha, _⟩ => h ha)
  case plain => exact exec_nmeaRender_of_error (renderLine_of_malformed fun ⟨_, _, hp⟩ => h hp)
  all_goals have hline := renderLine_of_wellFormed (cfg := s.cfg) hs ha hp
  case unknown =>
    rw [checkTag_of_unregistered hreg] at hline
    exact exec_nmeaRender_of_error hline
  case count =>
    rw [checkTag_of_wrong_count hreg hn] at hline
    exact exec_nmeaRender_of_error hline
  case carrier =>
    rw [checkTag_of_not_grammar hc hg] at hline
    exact exec_nmeaRender_of_error hline
  case passes =>
    obtain ⟨carr, hcheck⟩ := checkTag_passes (hn ▸ hreg) hg
    rw [hcheck] at hline
    exact ⟨fun hcap => exec_nmeaRender_of_error (hline.trans (if_pos hcap)),
      fun hcap => exec_nmeaRender_of_ok (hline.trans (if_neg (Nat.not_lt.mpr hcap)))⟩

/-- Settles O38: a render that ends `OK` has written the line of its registers, whose only commas
are those before the fields. -/
theorem renderKeepsTheFieldPlaces : Obligations.RenderKeepsTheFieldPlaces := by
  intro s t h hok
  obtain ⟨hs, hp, ht⟩ := exec_nmeaRender_ok h hok
  rw [ht]
  exact ⟨count_comma_lineOf hs hp, 0x2A#8 :: hexUpper (xorAll (spanOf s.sent)), rfl, rfl⟩

end Machine

end Sys2Proof
end

section
/-!
Fragment reassembly (spec/44_fragment.md R245 to R247): how `FRAG.BEGIN`, `FRAG.ADD` and `FRAG.END`
end, each outcome written as an equation with the whole next state.
-/
namespace Sys2Proof

/-! ### The command words (R91, R94) -/

theorem encode_fragBegin : encode .fragBegin = 0xA0000000#32 := by decide

theorem encode_fragAdd : encode .fragAdd = 0xA8000000#32 := by decide

theorem encode_fragEnd : encode .fragEnd = 0xB0000000#32 := by decide

namespace Machine

/-- The status word of a code is the code with zeros above it: `BUSY` and the reserved bits are
clear. -/
theorem statusWord_eq_setWidth (code : BitVec 4) : statusWord code = code.setWidth 8 :=
  BitVec.eq_of_toNat_eq (by rw [statusWord_toNat, BitVec.toNat_setWidth_of_le (by decide)])

theorem raiseCode_eq (code : BitVec 4) (s : State) :
    raiseCode code s = .next { s with status := code.setWidth 8 } := by
  rw [raiseCode, State.setErr, statusWord_eq_setWidth]

theorem carrierPayload_of_getElem? {fields : List Text} {p : Text} (h : fields[4]? = some p) :
    carrierPayload fields = p := by
  rw [carrierPayload, h]

/-! ### How `FRAG.BEGIN` ends, with the whole next state (R245) -/

theorem exec_fragBegin (s : State) :
    exec .fragBegin s
      = .next { s with a := [], afill := 0#3, aany := false, aerrc := 0#4, status := 0#8 } :=
  rfl

section Fragments

variable {s : State}

/-! ### How `FRAG.ADD` ends, with the whole next state (R246) -/

theorem exec_fragAdd_of_failed (h : s.aerrc ≠ 0#4) :
    exec .fragAdd s = .next { s with status := s.aerrc.setWidth 8 } :=
  (if_pos h).trans (raiseCode_eq s.aerrc s)

/-! ### How `FRAG.END` ends, with the whole next state (R247) -/

theorem exec_fragEnd_of_failed (h : s.aerrc ≠ 0#4) :
    exec .fragEnd s = .next { s with status := s.aerrc.setWidth 8 } :=
  (if_pos h).trans (raiseCode_eq s.aerrc s)

/-! ### Both commands when no earlier fragment failed -/

variable (herr : s.aerrc = 0#4)
include herr

theorem exec_fragAdd_of_not_carrier (h : s.cvalid = false) :
    exec .fragAdd s = .next { s with aerrc := 8#4, status := 8#8 } := by
  rw [exec, execFragAdd, if_neg (not_not_intro herr), if_pos h]
  rfl

theorem exec_fragAdd_of_lt {p : Text} (hcarr : s.cvalid = true) (hp : s.sent.fields[4]? = some p)
    (h : s.cfg.tcap < s.a.length + p.length) :
    exec .fragAdd s = .next { s with aerrc := 9#4, status := 9#8 } := by
  rw [exec, execFragAdd, if_neg (not_not_intro herr), if_neg (by simp [hcarr]),
    carrierPayload_of_getElem? hp, if_pos h]
  rfl

theorem exec_fragAdd_of_le {p : Text} (hcarr : s.cvalid = true) (hp : s.sent.fields[4]? = some p)
    (h : s.a.length + p.length ≤ s.cfg.tcap) :
    exec .fragAdd s
      = .next { s with a := s.a ++ p, afill := s.carr.fill, aany := true, status := 0#8 } := by
  rw [exec, execFragAdd, if_neg (not_not_intro herr), if_neg (by simp [hcarr]),
    carrierPayload_of_getElem? hp, if_neg (Nat.not_lt.mpr h)]
  rfl

theorem exec_fragEnd_of_no_fragment (h : s.aany = false) :
    exec .fragEnd s = .next { s with status := 10#8 } := by
  rw [exec, execFragEnd, if_neg (not_not_intro herr), if_pos h]
  rfl

theorem exec_fragEnd_of_any (h : s.aany = true) :
    exec .fragEnd s = .next { s with t := s.a, fill := s.afill, status := 0#8 } := by
  rw [exec, execFragEnd, if_neg (not_not_intro herr), if_neg (by simp [h])]
  rfl

end Fragments

/-! ### The statements -/

/-- Settles O43. -/
theorem fragBeginClearsTheAccumulator : Obligations.FragBeginClearsTheAccumulator := fun s =>
  ⟨encode_fragBegin, exec_fragBegin s⟩

/-- Settles O44: one outcome for each check of R246 in its order; with five fields the payload is
the fifth. -/
theorem fragAddAppendsThePayload : Obligations.FragAddAppendsThePayload := fun _ =>
  ⟨encode_fragAdd, exec_fragAdd_of_failed, exec_fragAdd_of_not_carrier, fun herr hcarr _ hp =>
    ⟨exec_fragAdd_of_lt herr hcarr hp, exec_fragAdd_of_le herr hcarr hp⟩⟩

/-- Settles O45: one outcome for each check of R247 in its order. -/
theorem fragEndDeliversTheText : Obligations.FragEndDeliversTheText := fun _ =>
  ⟨encode_fragEnd, exec_fragEnd_of_failed, exec_fragEnd_of_no_fragment, exec_fragEnd_of_any⟩

end Machine

end Sys2Proof
end

section
/-!
Commands that end in an error (spec/60_exceptions.md R262): what such a command can have written,
said once over all commands.
-/
namespace Sys2Proof.Machine

/-- The ways a command ends in an error: `STATUS` alone, or with the registers of one of R262's
three exceptions. -/
inductive FailedEnd (s : State) : Instr → State → Prop
  | raised {i : Instr} (hparse : i ≠ .nmeaParse) (hdispatch : i ≠ .aisDispatch)
      (hadd : i ≠ .fragAdd) (code : BitVec 4) : FailedEnd s i (s.setErr code)
  /-- Only `E_CHECKSUM`, code 2, has `CSINFO` as its diagnostic register. -/
  | parse {code : BitVec 4} {csinfo : BitVec 16} (hcsinfo : code ≠ 2#4 → csinfo = s.csinfo) :
      FailedEnd s .nmeaParse ({ s with csinfo := csinfo, cvalid := false }.setErr code)
  /-- `E_UNKNOWN_MSG`, code 4, writes `MTYPE`; `E_SIZE_MISMATCH`, code 5, the sizes too. -/
  | dispatch {code : BitVec 4} {tid : BitVec 6} {lo hi : BitVec 10}
      (htype : code ≠ 4#4 → code ≠ 5#4 → tid = s.mtype)
      (hsize : code ≠ 5#4 → lo = s.mmin ∧ hi = s.mmax) :
      FailedEnd s .aisDispatch
        ({ s with mvalid := false, mtype := tid, mmin := lo, mmax := hi }.setErr code)
  | add (code : BitVec 4) : FailedEnd s .fragAdd ({ s with aerrc := code }.setErr code)

/-- A command that reports an error ends in one of those ways: a success of `CommandEnd` reports
`OK`. -/
theorem failedEnd_of_exec {i : Instr} {s t : State} (h : exec i s = .next t)
    (herr : t.err ≠ 0#4) : FailedEnd s i t := by
  cases exec_end h with
  | raised _ e hparse hdispatch hadd => exact .raised hparse hdispatch hadd e.code
  | failedEnd => exact .raised (by decide) (by decide) (by decide) s.aerrc
  | unparsed e => exact .parse fun _ => rfl
  | wrongChecksum v => exact .parse fun h => absurd rfl h
  | tooShort => exact .dispatch (fun _ _ => rfl) fun _ => ⟨rfl, rfl⟩
  | unknownType tid => exact .dispatch (fun h => absurd rfl h) fun _ => ⟨rfl, rfl⟩
  | wrongSize tid lo hi => exact .dispatch (fun _ h => absurd rfl h) fun h => absurd rfl h
  | stillFailed => exact .add s.aerrc
  | notAdded e => exact .add e.code
  | _ => exact absurd (State.setErr_err 0#4 _) herr

/-- Settles O50: R262 is read off each of the four ways to fail. -/
theorem failedCommandHasNoOutput : Obligations.FailedCommandHasNoOutput := by
  intro i s t h herr
  cases failedEnd_of_exec h herr with
  | raised hparse hdispatch hadd => simp [State.setErr, hparse, hdispatch, hadd]
  | parse hcsinfo => simpa [State.setErr, State.err] using hcsinfo
  | dispatch htype hsize => simpa [State.setErr, State.err] using ⟨htype, hsize⟩
  | add => simp [State.setErr, State.err]

end Sys2Proof.Machine
end

section
/-!
Encoding (spec/30_encoding.md R91 to R95): decoding and encoding are inverse on the well-formed
commands and the accepted words.
-/
namespace Sys2Proof

open Sys2Proof.Machine

/-- A type ID fills the low six bits of `imm` and leaves the upper ones zero (R92). -/
theorem setWidth_typeId_toNat_le (id : BitVec 6) : (id.setWidth 16).toNat ≤ 63 := by
  rw [BitVec.toNat_setWidth_of_le (by decide)]
  omega

theorem extractLsb'_setWidth_typeId (id : BitVec 6) : (id.setWidth 16).extractLsb' 0 6 = id := by
  revert id; decide

theorem setWidth_extractLsb'_typeId {imm : BitVec 16} (h : imm.toNat ≤ 63) :
    (imm.extractLsb' 0 6).setWidth 16 = imm := by
  apply BitVec.eq_of_toNat_eq
  simp only [BitVec.toNat_setWidth, BitVec.extractLsb'_toNat, Nat.shiftRight_zero]
  omega

/-! ### Each format accepts its own assembled words -/

section Accepted

variable (op : BitVec 5) (kind : Kind) {wid : BitVec 7} (imm : BitVec 16)

theorem decodeFormatN_assemble (i : Instr) : decodeFormatN i (assemble op 0#2 0#7 0#16) = .ok i :=
  decodeFormatN_ok.mpr (by simp)

theorem decodeInit_assemble : decodeInit (assemble op 0#2 0#7 imm) = .ok (.bfInit imm) :=
  decodeInit_ok.mpr (by simp)

theorem decodeCast_assemble (id : BitVec 6) :
    decodeCast (assemble op 0#2 0#7 (id.setWidth 16)) = .ok (.aisCast id) :=
  decodeCast_ok.mpr (by
    simp only [kindField_assemble, widField_assemble, immField_assemble, true_and,
      extractLsb'_setWidth_typeId, and_true]
    exact setWidth_typeId_toNat_le id)

variable (hwid : legalWidth wid = true)
include hwid

theorem decodeAppend_assemble :
    decodeAppend (assemble op kind.code wid 0#16) = .ok (.bfAppend kind wid) :=
  decodeAppend_ok.mpr (by simp [hwid])

theorem decodeFormatF_assemble (mk : Kind → BitVec 16 → BitVec 7 → Instr) :
    decodeFormatF mk (assemble op kind.code wid imm) = .ok (mk kind imm wid) :=
  decodeFormatF_ok.mpr (by simp [hwid])

end Accepted

/-- The operation of the word chooses the format, and the format gives the command back. -/
theorem decode_encode {i : Instr} (h : i.wellFormed = true) : decode (encode i) = .ok i := by
  cases i with
  | bfInit n => simp [encode, decode, decodeInit_assemble]
  | bfAppend kind wid => simp [encode, decode, decodeAppend_assemble _ kind h]
  | bfPack kind off wid => simp [encode, decode, decodeFormatF_assemble _ kind off h]
  | bfUnpack kind off wid => simp [encode, decode, decodeFormatF_assemble _ kind off h]
  | aisCast id => simp [encode, decode, decodeCast_assemble]
  | _ => simp [encode, decode, decodeFormatN_assemble]

/-- Settles O2. -/
theorem decodeOfEncodeIsTheCommand : Obligations.DecodeOfEncodeIsTheCommand :=
  fun _ h => decode_encode h

/-! ### Each format accepts only the encoding of what it reads -/

section Read

variable {cw : Word} {i : Instr} (hrsv : rsvField cw = 0#2)
include hrsv

theorem decodeFormatN_encode {j : Instr}
    (hj : encode j = assemble (opField cw) 0#2 0#7 0#16) (hwf : j.wellFormed = true)
    (h : decodeFormatN j cw = .ok i) : i.wellFormed = true ∧ encode i = cw := by
  obtain ⟨hkind, hwid, himm, rfl⟩ := decodeFormatN_ok.mp h
  refine ⟨hwf, hj.trans ?_⟩
  rw [← hkind, ← hwid, ← himm, assemble_fields cw hrsv]

theorem decodeInit_encode (hop : opField cw = 0x01#5) (h : decodeInit cw = .ok i) :
    i.wellFormed = true ∧ encode i = cw := by
  obtain ⟨hkind, hwid, rfl⟩ := decodeInit_ok.mp h
  refine ⟨rfl, ?_⟩
  rw [encode, ← hop, ← hkind, ← hwid, assemble_fields cw hrsv]

theorem decodeCast_encode (hop : opField cw = 0x0D#5) (h : decodeCast cw = .ok i) :
    i.wellFormed = true ∧ encode i = cw := by
  obtain ⟨hkind, hwid, himm, rfl⟩ := decodeCast_ok.mp h
  refine ⟨rfl, ?_⟩
  rw [encode, setWidth_extractLsb'_typeId himm, ← hop, ← hkind, ← hwid, assemble_fields cw hrsv]

theorem decodeAppend_encode (hop : opField cw = 0x02#5) (h : decodeAppend cw = .ok i) :
    i.wellFormed = true ∧ encode i = cw := by
  obtain ⟨himm, hwid, rfl⟩ := decodeAppend_ok.mp h
  refine ⟨hwid, ?_⟩
  rw [encode, Kind.code_ofCode, ← hop, ← himm, assemble_fields cw hrsv]

theorem decodePack_encode (hop : opField cw = 0x03#5) (h : decodeFormatF .bfPack cw = .ok i) :
    i.wellFormed = true ∧ encode i = cw := by
  obtain ⟨hwid, rfl⟩ := decodeFormatF_ok.mp h
  refine ⟨hwid, ?_⟩
  rw [encode, Kind.code_ofCode, ← hop, assemble_fields cw hrsv]

theorem decodeUnpack_encode (hop : opField cw = 0x04#5)
    (h : decodeFormatF .bfUnpack cw = .ok i) : i.wellFormed = true ∧ encode i = cw := by
  obtain ⟨hwid, rfl⟩ := decodeFormatF_ok.mp h
  refine ⟨hwid, ?_⟩
  rw [encode, Kind.code_ofCode, ← hop, assemble_fields cw hrsv]

end Read

/-- A choice that answers `i` does so by one of its branches: one link of `decode`'s chain. -/
theorem of_ite_eq_ok {c p : Prop} [Decidable c] {x y : Except IllegalWord Instr} {i : Instr}
    (hx : c → x = .ok i → p) (hy : ¬ c → y = .ok i → p) : (if c then x else y) = .ok i → p :=
  iteInduction (motive := fun r : Except IllegalWord Instr => r = .ok i → p) hx hy

/-- The word of an accepted command is the command's encoding: one link of the decoder's chain at a
time, the reserved bits zero from the first link on. -/
theorem encode_of_decode {cw : Word} {i : Instr} :
    decode cw = .ok i → i.wellFormed = true ∧ encode i = cw := by
  unfold decode
  refine of_ite_eq_ok (fun _ h => nomatch h) fun h => ?_
  have hrsv : rsvField cw = 0#2 := not_not.mp h
  refine of_ite_eq_ok (decodeInit_encode hrsv) fun _ => ?_
  refine of_ite_eq_ok (decodeAppend_encode hrsv) fun _ => ?_
  refine of_ite_eq_ok (decodePack_encode hrsv) fun _ => ?_
  refine of_ite_eq_ok (decodeUnpack_encode hrsv) fun _ => ?_
  refine of_ite_eq_ok (fun h => decodeFormatN_encode hrsv (h ▸ rfl) rfl) fun _ => ?_
  refine of_ite_eq_ok (fun h => decodeFormatN_encode hrsv (h ▸ rfl) rfl) fun _ => ?_
  refine of_ite_eq_ok (fun h => decodeFormatN_encode hrsv (h ▸ rfl) rfl) fun _ => ?_
  refine of_ite_eq_ok (decodeCast_encode hrsv) fun _ => ?_
  refine of_ite_eq_ok (fun h => decodeFormatN_encode hrsv (h ▸ rfl) rfl) fun _ => ?_
  refine of_ite_eq_ok (fun h => decodeFormatN_encode hrsv (h ▸ rfl) rfl) fun _ => ?_
  refine of_ite_eq_ok (fun h => decodeFormatN_encode hrsv (h ▸ rfl) rfl) fun _ => ?_
  refine of_ite_eq_ok (fun h => decodeFormatN_encode hrsv (h ▸ rfl) rfl) fun _ => ?_
  refine of_ite_eq_ok (fun h => decodeFormatN_encode hrsv (h ▸ rfl) rfl) fun _ => ?_
  exact of_ite_eq_ok (fun h => decodeFormatN_encode hrsv (h ▸ rfl) rfl) fun _ h => nomatch h

/-- Settles O3. -/
theorem acceptedWordIsItsOwnEncoding : Obligations.AcceptedWordIsItsOwnEncoding :=
  fun _ _ => encode_of_decode

/-- Settles O1: nine fixed words. -/
theorem exampleWordsDecodeAsWritten : Obligations.ExampleWordsDecodeAsWritten := by
  unfold Obligations.ExampleWordsDecodeAsWritten
  decide

end Sys2Proof
end

section
/-!
What every step keeps (spec/10_state.md sections 4 to 10): the ways a host write ends, the one case
analysis of a step, and the invariants of the machine as instances of it.
-/
namespace Sys2Proof.Machine

/-- The ways a host write ends in a next state: the element it writes, and the flag a write of `B`,
`S` or `C` clears (R44). -/
inductive WriteEnd (s : State) : State → Prop
  | val (v : BitVec 64) : WriteEnd s { s with val := v }
  | fill (v : BitVec 3) : WriteEnd s { s with fill := v }
  | text (v : Text) : WriteEnd s { s with t := v }
  | bits (v : Bits) : WriteEnd s (s.writeB v)
  | sentence (x : Sentence) : WriteEnd s (s.touchSentence x)
  | carrier (c : Carrier) : WriteEnd s (s.touchCarrier c)

theorem writeSentence_end {x : Sentence} {s t : State} (h : writeSentence x s = .next t) :
    WriteEnd s t := by
  unfold writeSentence at h
  split_ifs at h
  cases h
  exact .sentence x

theorem hostWrite_end {w : HostWrite} {s t : State} (h : hostWrite w s = .next t) :
    WriteEnd s t := by
  cases w with
  | val v => cases h; exact .val v
  | fill v => cases h; exact .fill v
  | t v =>
    simp only [hostWrite] at h
    split_ifs at h
    cases h
    exact .text v
  | b v =>
    simp only [hostWrite] at h
    split_ifs at h
    cases h
    exact .bits v
  | start => cases h; exact .sentence _
  | talker | tag | fields => exact writeSentence_end h
  | count | index | seqPresent | seq | chanPresent | chan | carrierFill =>
    cases h
    exact .carrier _

/-- What each kind of item keeps, a step keeps: the one case analysis of a step. -/
theorem step_keeps {P : State → Prop}
    (hpending : ∀ s rest, P s → P { s with pending := rest })
    (hwrite : ∀ w s t, P s → hostWrite w s = .next t → P t)
    (hexec : ∀ i s t, P s → exec i s = .next t → P t)
    (hillegal : ∀ s, P s → P (s.setErr Err.illegal.code))
    (hreset : ∀ s, P s → P (assertReset s))
    {s t : State} (hs : P s) (h : step s = .next t) : P t := by
  obtain ⟨-, rfl⟩ | ⟨item, rest, -, -, h⟩ := step_next h
  · exact hs
  replace hs := hpending s rest hs
  cases item with
  | write w => exact hwrite w _ t hs h
  | read e =>
    simp only [takeItem] at h
    split at h <;> cases h
    exact hs
  | command cw =>
    simp only [takeItem, issueCommand] at h
    split at h
    case h_1 i _ => exact hexec i _ t hs h
    case h_2 => cases h; exact hillegal _ hs
  | reset => cases h; exact hreset _ hs

/-! ### The configuration and the capacities -/

theorem hostWrite_cfg {w : HostWrite} {s t : State} (h : hostWrite w s = .next t) :
    t.cfg = s.cfg := by
  cases hostWrite_end h <;> rfl

theorem exec_cfg {i : Instr} {s t : State} (h : exec i s = .next t) : t.cfg = s.cfg := by
  cases exec_end h <;> rfl

theorem step_keeps_cfg_wf {s t : State} (hs : s.cfg.wf) (h : step s = .next t) : t.cfg.wf :=
  step_keeps (P := fun s => s.cfg.wf) (fun _ _ hs => hs)
    (fun _ _ _ hs h => (hostWrite_cfg h).symm ▸ hs) (fun _ _ _ hs h => (exec_cfg h).symm ▸ hs)
    (fun _ hs => hs) (fun _ hs => hs) hs h

/-- Settles O56. -/
theorem stepKeepsTheCapacities : Obligations.StepKeepsTheCapacities := fun _ _ hs h =>
  step_keeps (P := Memory.wf) (fun _ _ hs => hs) (fun _ _ _ => Memory.wf_hostWrite)
    (fun _ _ _ => Memory.wf_exec) (fun _ hs => hs) (fun s _ => Memory.wf_resetWith s.cfg) hs h

/-! ### The meaning of `MVALID` (R32) -/

/-- A write of `B` clears the flag, and no other write touches what the flag speaks of. -/
theorem messageValid_hostWrite {w : HostWrite} {s t : State} (hs : MessageValid s)
    (h : hostWrite w s = .next t) : MessageValid t := by
  cases hostWrite_end h with
  | bits v => exact fun hv => nomatch hv
  | _ => exact hs

/-- A command that writes `B` clears the flag, a dispatch sets it for the message it has found, and
no other command touches what the flag speaks of. -/
theorem messageValid_exec {i : Instr} {s t : State} (hs : MessageValid s)
    (h : exec i s = .next t) : MessageValid t := by
  cases exec_end h with
  | init | append | pack | decoded | tooShort | unknownType | wrongSize =>
    exact fun hv => nomatch hv
  | dispatched r hlen hreg hmin hmax => exact fun _ => ⟨hlen, rfl, hreg, hmin, hmax⟩
  | _ => exact hs

/-- Settles O57. -/
theorem stepKeepsTheMeaningOfMvalid : Obligations.StepKeepsTheMeaningOfMvalid := fun _ _ hs h =>
  step_keeps (P := MessageValid) (fun _ _ hs => hs) (fun _ _ _ => messageValid_hostWrite)
    (fun _ _ _ => messageValid_exec) (fun _ hs => hs) (fun _ _ hv => nomatch hv) hs h

/-! ### The meaning of `CVALID` (R39) -/

/-- A write of `S` or `C` clears the flag, and no other write touches what the flag speaks of. -/
theorem carrierValid_hostWrite {w : HostWrite} {s t : State} (hs : CarrierValid s)
    (h : hostWrite w s = .next t) : CarrierValid t := by
  cases hostWrite_end h with
  | sentence | carrier => exact fun hv => nomatch hv
  | _ => exact hs

/-- A parse clears the flag, or sets it for the carrier sentence it has read; `FRAG.FORM` clears
it, and no other command touches what the flag speaks of. -/
theorem carrierValid_exec {i : Instr} {s t : State} (hs : CarrierValid s)
    (h : exec i s = .next t) : CarrierValid t := by
  cases exec_end h with
  | parsed | unparsed | wrongChecksum | formed => exact fun hv => nomatch hv
  | parsedCarrier x c hcarrier hfields => exact fun _ => ⟨hcarrier, hfields⟩
  | _ => exact hs

/-- Settles O58. -/
theorem stepKeepsTheMeaningOfCvalid : Obligations.StepKeepsTheMeaningOfCvalid := fun _ _ hs h =>
  step_keeps (P := CarrierValid) (fun _ _ hs => hs) (fun _ _ _ => carrierValid_hostWrite)
    (fun _ _ _ => carrierValid_exec) (fun _ hs => hs) (fun _ _ hv => nomatch hv) hs h

/-! ### `STATUS` and the accumulator (R28, R40 to R43) -/

theorem statusLegal_setErr {code : BitVec 4} (h : code.toNat ≤ 10) (s : State) :
    StatusLegal (s.setErr code) :=
  (statusWord_toNat code).trans_le h

theorem statusLegal_hostWrite {w : HostWrite} {s t : State} (hs : StatusLegal s)
    (h : hostWrite w s = .next t) : StatusLegal t := by
  cases hostWrite_end h <;> exact hs

/-- The code a `FRAG` command raises again is one that `STATUS` may hold. -/
theorem AccumulatorLegal.aerrc_le {s : State} (h : AccumulatorLegal s) : s.aerrc.toNat ≤ 10 := by
  obtain ⟨-, -, h | h | h⟩ := h <;> rw [h] <;> decide

/-- A command ends with one of the eleven codes, or with the code in `AERRC`. -/
theorem statusLegal_exec {i : Instr} {s t : State} (hacc : AccumulatorLegal s)
    (h : exec i s = .next t) : StatusLegal t := by
  cases exec_end h with
  | raised _ e => exact statusLegal_setErr e.code_le _
  | unparsed e => exact statusLegal_setErr e.code_le _
  | notAdded e => exact statusLegal_setErr e.code_le _
  | stillFailed | failedEnd => exact statusLegal_setErr hacc.aerrc_le _
  | _ => exact statusLegal_setErr (by decide) _

theorem accumulatorLegal_hostWrite {w : HostWrite} {s t : State} (hs : AccumulatorLegal s)
    (h : hostWrite w s = .next t) : AccumulatorLegal t := by
  cases hostWrite_end h <;> exact hs

/-- The grammar of the carrier fields admits fill bits 0 to 5 (R241). -/
theorem carrierFields_fill_le {fields : List Text} {c : Carrier}
    (h : carrierFields fields = some c) : c.fill.toNat ≤ 5 := by
  obtain ⟨_, _, _, _, _, _, -, -, -, -, -, hfill⟩ := carrierFields_eq_some.mp h
  obtain ⟨d, -, -, hd, hn⟩ := fillField_eq_some.mp hfill
  omega

/-- Only `FRAG.BEGIN` and `FRAG.ADD` write the accumulator, and the fill bits a fragment brings are
those of a carrier sentence. -/
theorem accumulatorLegal_exec {i : Instr} {s t : State} (hs : AccumulatorLegal s)
    (hcarrier : CarrierValid s) (h : exec i s = .next t) : AccumulatorLegal t := by
  obtain ⟨hempty, hfill, -⟩ := id hs
  cases exec_end h with
  | begun => exact ⟨fun _ => ⟨rfl, rfl⟩, Nat.zero_le 5, .inl rfl⟩
  | notAdded e he => exact ⟨hempty, hfill, .inr (he.imp (congrArg Err.code) (congrArg Err.code))⟩
  | added p _ hvalid herr =>
    exact ⟨(fun h => nomatch h), carrierFields_fill_le (hcarrier hvalid).2, .inl herr⟩
  | _ => exact hs

/-- The three parts of the invariant that lean on one another: `STATUS` takes its code from the
accumulator, and the accumulator its fill bits from the carrier registers. -/
abbrev RegistersLegal (s : State) : Prop := StatusLegal s ∧ CarrierValid s ∧ AccumulatorLegal s

theorem registersLegal_resetWith (c : Config) : RegistersLegal (State.resetWith c) :=
  ⟨Nat.zero_le 10, (fun h => nomatch h), fun _ => ⟨rfl, rfl⟩, Nat.zero_le 5, .inl rfl⟩

theorem step_keeps_registersLegal {s t : State} (hs : RegistersLegal s) (h : step s = .next t) :
    RegistersLegal t := by
  refine step_keeps (P := RegistersLegal) (fun _ _ hs => hs) ?write ?exec ?illegal
    (fun s _ => registersLegal_resetWith s.cfg) hs h
  case write =>
    exact fun _ _ _ ⟨hstatus, hcarrier, hacc⟩ h => ⟨statusLegal_hostWrite hstatus h,
      carrierValid_hostWrite hcarrier h, accumulatorLegal_hostWrite hacc h⟩
  case exec =>
    exact fun _ _ _ ⟨_, hcarrier, hacc⟩ h => ⟨statusLegal_exec hacc h,
      carrierValid_exec hcarrier h, accumulatorLegal_exec hacc hcarrier h⟩
  case illegal =>
    exact fun s ⟨_, hcarrier, hacc⟩ => ⟨statusLegal_setErr Err.illegal.code_le s, hcarrier, hacc⟩

/-! ### The invariant -/

/-- Settles O59: the parts of the invariant, each kept on its own but for `RegistersLegal`. -/
theorem stepKeepsTheInvariant : Obligations.StepKeepsTheInvariant := by
  intro s t ⟨hcfg, hmem, hstatus, hmessage, hcarrier, hacc⟩ h
  obtain ⟨hstatus', hcarrier', hacc'⟩ := step_keeps_registersLegal ⟨hstatus, hcarrier, hacc⟩ h
  exact ⟨step_keeps_cfg_wf hcfg h, stepKeepsTheCapacities s t hmem h, hstatus',
    stepKeepsTheMeaningOfMvalid s t hmessage h, hcarrier', hacc'⟩

/-- Settles O55: the flags and the accumulator are clear after reset, and the configuration of
`State.reset` is allowed. -/
theorem resetStateMeetsTheInvariant : Obligations.ResetStateMeetsTheInvariant := by
  refine ⟨fun c hc => ?_, by decide +kernel⟩
  obtain ⟨hstatus, hcarrier, hacc⟩ := registersLegal_resetWith c
  exact ⟨hc, Memory.wf_resetWith c, hstatus, (fun h => nomatch h), hcarrier, hacc⟩

end Sys2Proof.Machine
end

section
/-!
The laws of the bitfield engine (spec/40_bitfield.md R147 to R149) and the commands of a layout row
(R150).
-/
namespace Sys2Proof.Machine

open Sys2Proof.Claims

/-! ### A field written and read (R147) -/

/-- A field just written reads as the low bits of the value. -/
theorem fieldSum_bitWrite {n off w : Nat} {b : Bits} (v : BitVec n) (h : off + w ≤ b.length) :
    fieldSum (bitWrite b off w v) off w = v.toNat % 2 ^ w := by
  rw [fieldSum, ← bitRead_eq_sum _ off w (by rwa [bitWrite_length b off w v h]),
    bitRead_bitWrite b off w v h]

/-- Zero extension of the low bits of a value. -/
theorem extendValue_mod_of_zeroExtended {k : Kind} (hk : k = .unsigned ∨ k = .enumerated)
    {w : Nat} (hw : w ≤ 64) (v : BitVec 64) :
    extendValue k w (v.toNat % 2 ^ w) = (v.setWidth w).setWidth 64 := by
  apply BitVec.eq_of_toNat_eq
  rw [extendValue_toNat_of_zeroExtended hk hw (Nat.mod_lt _ (Nat.two_pow_pos w)),
    BitVec.toNat_setWidth_of_le hw, BitVec.toNat_setWidth]

theorem toSigned_toNat {w : Nat} (hw : 1 ≤ w) (x : BitVec w) : toSigned w x.toNat = x.toInt := by
  have hpow : 2 ^ w = 2 * 2 ^ (w - 1) := by rw [← pow_succ']; congr 1; omega
  rw [toSigned, BitVec.toInt, hpow]
  congr 1
  · simp
  · rw [← hpow, Nat.cast_pow]; rfl

/-- Sign extension of the low bits of a value. -/
theorem extendValue_signed_mod {w : Nat} (hw : 1 ≤ w) (v : BitVec 64) :
    extendValue .signed w (v.toNat % 2 ^ w) = (v.setWidth w).signExtend 64 := by
  rw [extendValue, BitVec.signExtend, ← toSigned_toNat hw, BitVec.toNat_setWidth]

/-- A boolean field holds 0 or 1, whatever its width. -/
theorem fieldValue_boolean_mod {w : Nat} (hw : 1 ≤ w) (v : BitVec 64) :
    (fieldValue .boolean v).toNat % 2 ^ w = if v = 0#64 then 0 else 1 := by
  have hpow : 1 < 2 ^ w := Nat.one_lt_two_pow (by omega)
  rw [fieldValue, apply_ite BitVec.toNat]
  split_ifs
  · exact Nat.zero_mod _
  · exact Nat.mod_eq_of_lt hpow

/-- Settles O16: the number read back is the stored value's low bits, and each kind's extension of
them is the one R147 names. -/
theorem packThenUnpackReturnsTheValue : Obligations.PackThenUnpackReturnsTheValue := by
  intro k off wid s hwid h
  obtain ⟨hlow, hhigh⟩ := legalWidth_iff.mp hwid
  refine ⟨_, _, exec_bfPack_of_le h,
    exec_bfUnpack_of_le (by rwa [bitWrite_length _ _ _ _ h]), rfl, ?zeroExtended, ?signed, ?boolean⟩
  all_goals simp only [fieldSum_bitWrite _ h]
  case zeroExtended =>
    intro hk
    rw [← extendValue_mod_of_zeroExtended hk hhigh]
    obtain rfl | rfl := hk <;> rfl
  case signed =>
    rintro rfl
    exact extendValue_signed_mod hlow s.val
  case boolean =>
    rintro rfl
    rw [fieldValue_boolean_mod hlow]
    by_cases hv : s.val = 0#64 <;> simp [extendValue, hv]

/-- Settles O17: the unsigned number of a field is stored as the bits it was read from. -/
theorem unpackThenPackLeavesTheBits : Obligations.UnpackThenPackLeavesTheBits := by
  intro off wid s hwid h
  refine ⟨_, _, exec_bfUnpack_of_le h, exec_bfPack_of_le h, rfl, ?_⟩
  have hfield : fieldSum s.b off.toNat wid.toNat = bitRead s.b off.toNat wid.toNat :=
    (bitRead_eq_sum s.b _ _ h).symm
  simp only [hfield, extendValue, fieldValue]
  exact bitWrite_bitRead s.b _ _ h (legalWidth_iff.mp hwid).2

/-! ### Disjoint fields (R149) -/

/-- Each bit is inside one of the two fields or inside neither. -/
theorem bitWrite_comm {n m off₁ off₂ w₁ w₂ : Nat} (b : Bits) (v₁ : BitVec n) (v₂ : BitVec m)
    (h₁ : off₁ + w₁ ≤ b.length) (h₂ : off₂ + w₂ ≤ b.length)
    (hdisj : off₁ + w₁ ≤ off₂ ∨ off₂ + w₂ ≤ off₁) :
    bitWrite (bitWrite b off₁ w₁ v₁) off₂ w₂ v₂ = bitWrite (bitWrite b off₂ w₂ v₂) off₁ w₁ v₁ := by
  apply List.ext_getElem?
  intro i
  rw [bitWrite_getElem? _ _ _ _ (by rwa [bitWrite_length _ _ _ _ h₁]),
    bitWrite_getElem? _ _ _ _ h₁, bitWrite_getElem? _ _ _ _ (by rwa [bitWrite_length _ _ _ _ h₂]),
    bitWrite_getElem? _ _ _ _ h₂]
  by_cases hin : off₁ ≤ i ∧ i < off₁ + w₁
  · rw [if_neg (show ¬ (off₂ ≤ i ∧ i < off₂ + w₂) by omega), if_pos hin, if_pos hin]
  · rw [if_neg hin, if_neg hin]

/-- Settles O18. -/
theorem packsOfDisjointFieldsCommute : Obligations.PacksOfDisjointFieldsCommute := by
  intro k₁ k₂ off₁ off₂ wid₁ wid₂ v₁ v₂ s _ _ h₁ h₂ hdisj
  refine ⟨_, _, _, _, exec_bfPack_of_le h₁, exec_bfPack_of_le ?_, exec_bfPack_of_le h₂,
    exec_bfPack_of_le ?_, bitWrite_comm s.b _ _ h₁ h₂ hdisj⟩
  · rwa [bitWrite_length _ _ _ _ h₁]
  · rwa [bitWrite_length _ _ _ _ h₂]

/-! ### The commands of a layout row (R150) -/

/-- The operands of the command that moves one piece of a row. -/
def pieceOperands (p : FieldDescriptor) : Kind × BitVec 16 × BitVec 7 :=
  (p.kind, BitVec.ofNat 16 p.offset, BitVec.ofNat 7 p.width)

/-- A row that ends within 65536 bits becomes one command for each piece, with its operands. -/
theorem fieldCommands_eq_operands (command : Kind → BitVec 16 → BitVec 7 → Instr)
    {d : FieldDescriptor} (h : d.offset + d.width < 2 ^ 16) :
    fieldCommands command d = some (((fieldPieces d).map pieceOperands).map
      (fun p => command p.1 p.2.1 p.2.2)) := by
  rw [fieldCommands_eq command h, List.map_map]
  rfl

theorem pieceOperands_offset {d p : FieldDescriptor} (h : d.offset + d.width < 2 ^ 16)
    (hp : p ∈ fieldPieces d) : (pieceOperands p).2.1.toNat = p.offset := by
  have := fieldPieces_mem hp
  exact Nat.mod_eq_of_lt (by omega)

theorem pieceOperands_width {d p : FieldDescriptor} (hp : p ∈ fieldPieces d) :
    (pieceOperands p).2.2.toNat = p.width := by
  have := fieldPieces_mem hp
  exact Nat.mod_eq_of_lt (by omega)

theorem fieldPieces_of_narrow {d : FieldDescriptor} (hlow : 1 ≤ d.width) (hhigh : d.width ≤ 64) :
    fieldPieces d = [d] := by
  rw [fieldPieces, if_neg (by omega), if_pos hhigh]

theorem fieldPieces_kind_of_wide {d p : FieldDescriptor} (h : 64 < d.width)
    (hp : p ∈ fieldPieces d) : p.kind = .unsigned := by
  rw [fieldPieces, if_neg (by omega), if_neg (Nat.not_le.mpr h)] at hp
  obtain ⟨i, -, rfl⟩ := List.mem_map.mp hp
  rfl

/-- Settles O60: the commands are those of the row's pieces, whose offsets and widths fit the
command word because a row ends within 1024 bits. -/
theorem layoutRowsBecomeLegalCommands : Obligations.LayoutRowsBecomeLegalCommands := by
  intro c tid fields d hwf hlayout hd
  obtain ⟨-, -, -, -, -, -, -, -, hlayouts⟩ := hwf
  have hrow : d.offset + d.width < 2 ^ 16 :=
    (Config.layout_row_bound hlayouts hlayout hd).trans (by decide)
  refine ⟨(fieldPieces d).map pieceOperands, fieldCommands_eq_operands .bfUnpack hrow,
    fieldCommands_eq_operands .bfPack hrow, ?legal, fun b => ?bits, fun hlow hhigh => ?narrow,
    fun hwide => ?wide⟩
  case legal =>
    simp only [List.forall_mem_map]
    intro p hp
    obtain ⟨hlow, hhigh, -, -⟩ := fieldPieces_mem hp
    rw [legalWidth_iff, pieceOperands_width hp]
    exact ⟨hlow, hhigh⟩
  case bits =>
    rw [← fieldPieces_cover d b, List.flatMap_map]
    refine List.flatMap_congr fun p hp => ?_
    rw [pieceOperands_offset hrow hp, pieceOperands_width hp]
  case narrow =>
    have hpieces := fieldPieces_of_narrow hlow hhigh
    have hp : d ∈ fieldPieces d := hpieces ▸ List.mem_singleton_self d
    exact ⟨_, _, congrArg (List.map pieceOperands) hpieces, pieceOperands_offset hrow hp,
      pieceOperands_width hp⟩
  case wide =>
    simp only [List.forall_mem_map]
    exact fun p hp => fieldPieces_kind_of_wide hwide hp

end Sys2Proof.Machine
end

section
/-!
The laws of the armor codec (spec/41_armor.md R160, R161, R169, R170) and of the dispatcher's
registry (spec/00_scope.md R9, R10, spec/42_ais_dispatch.md R180, R189).
-/
namespace Sys2Proof

open Sys2Proof.Machine Sys2Proof.Claims

namespace Machine

/-! ### The alphabet (R160, R161) -/

theorem enc6_toNat_of_le {v : BitVec 6} (h : v.toNat ≤ 39) : (enc6 v).toNat = 0x30 + v.toNat := by
  rw [enc6, if_pos h, BitVec.toNat_ofNat]
  omega

theorem enc6_toNat_of_ge {v : BitVec 6} (h : 40 ≤ v.toNat) : (enc6 v).toNat = 0x38 + v.toNat := by
  rw [enc6, if_neg (by omega), BitVec.toNat_ofNat]
  omega

theorem dec6_eq_none_iff {c : Byte} :
    dec6 c = none ↔
      c.toNat < 0x30 ∨ (0x58 ≤ c.toNat ∧ c.toNat ≤ 0x5F) ∨ 0x78 ≤ c.toNat := by
  unfold dec6
  split_ifs with hlow hhigh
  · simp only [false_iff]; omega
  · simp only [false_iff]; omega
  · simp only [true_iff]; omega

/-- Settles O19: the two ranges of the table, and the two directions inverse by `dec6_enc6` and
`enc6_of_dec6`. -/
theorem armorAlphabetIsABijection : Obligations.ArmorAlphabetIsABijection :=
  ⟨fun _ => enc6_toNat_of_le, fun _ => enc6_toNat_of_ge, dec6_enc6, fun _ _ => enc6_of_dec6,
    fun _ => dec6_eq_none_iff⟩

/-! ### Bits to armor to bits (R169) -/

/-- Six times the characters of a text are its bits and the padding. -/
theorem six_mul_armorText_length (b : Bits) :
    6 * (armorText b).length = b.length + padBits b.length := by
  have := padBits_spec b.length
  rw [armorText_length]
  omega

theorem armorText_length_eq (b : Bits) : (armorText b).length = (b.length + 5) / 6 := by
  rw [armorText_length, padBits]
  omega

theorem armorBits_armorText (b : Bits) :
    armorBits (armorText b) = some (b ++ List.replicate (padBits b.length) false) :=
  armorBits_armorGroups _ (by simpa using padBits_spec b.length)

/-- Settles O22: the characters decode to the padded bits, and the fill bits are the padding. -/
theorem armorRoundTripRestoresTheBits : Obligations.ArmorRoundTripRestoresTheBits := by
  intro s h
  obtain ⟨htext, hbits⟩ : (armorText s.b).length ≤ s.cfg.tcap
      ∧ 6 * (armorText s.b).length ≤ s.cfg.bcap := by
    rw [armorText_length_eq]
    obtain h | ⟨⟨hbcap, htcap, -⟩, hlen⟩ := h
    · exact h
    · omega
  have hpad := padBits_lt s.b.length
  have hfill := ofNat_padBits_toNat s.b.length
  have hlen := six_mul_armorText_length s.b
  rw [armorText_length] at htext
  refine ⟨_, _, exec_armEnc_of_le htext, exec_armDec_of_le (by simp only [hfill]; omega) hbits
    (armorBits_armorText s.b) (by simp only [hfill]; omega), rfl, rfl, ?_⟩
  simp only [hfill, hlen, Nat.add_sub_cancel, List.take_left']

/-! ### Armor to bits to armor (R170) -/

theorem armorBits_cons_eq_some {c : Byte} {cs : Text} {bits : Bits} :
    armorBits (c :: cs) = some bits ↔
      ∃ g rest, dec6 c = some g ∧ armorBits cs = some rest ∧ bits = fieldBits 6 g ++ rest := by
  rw [armorBits]
  cases hc : dec6 c <;> cases hcs : armorBits cs <;> simp [eq_comm]

theorem groupValue_fieldBits (g : BitVec 6) : groupValue (fieldBits 6 g) = g := by
  rw [groupValue, bitsToNat_fieldBits, Nat.mod_eq_of_lt g.isLt, BitVec.ofNat_toNat,
    BitVec.setWidth_eq]

/-- A text is the characters of the bits it decodes to. -/
theorem armorGroups_of_armorBits {t : Text} {bits : Bits} (h : armorBits t = some bits) :
    armorGroups bits = t := by
  induction t generalizing bits with
  | nil => cases h; rfl
  | cons c cs ih =>
    obtain ⟨g, rest, hg, hrest, rfl⟩ := armorBits_cons_eq_some.mp h
    have hgroup := groupValue_fieldBits g
    simp only [fieldBits, List.cons_append, List.nil_append] at hgroup ⊢
    rw [armorGroups, hgroup, enc6_of_dec6 hg, ih hrest]

theorem armorBits_append_singleton {t : Text} {bits : Bits} {c : Byte} {g : BitVec 6}
    (h : armorBits t = some bits) (hc : dec6 c = some g) :
    armorBits (t ++ [c]) = some (bits ++ fieldBits 6 g) := by
  induction t generalizing bits with
  | nil => cases h; simp [armorBits, hc]
  | cons d ds ih =>
    obtain ⟨g', rest, hg', hrest, rfl⟩ := armorBits_cons_eq_some.mp h
    exact armorBits_cons_eq_some.mpr ⟨g', _, hg', ih hrest, List.append_assoc ..⟩

theorem armorBits_length {t : Text} {bits : Bits} (h : armorBits t = some bits) :
    bits.length = 6 * t.length := by
  induction t generalizing bits with
  | nil => cases h; rfl
  | cons c cs ih =>
    obtain ⟨g, rest, -, hrest, rfl⟩ := armorBits_cons_eq_some.mp h
    rw [List.length_append, fieldBits_length, ih hrest, List.length_cons]
    omega

/-- The last bits of a group trimmed, then padded back with zeros. -/
theorem trimmed_group {g : BitVec 6} {fill : Nat} (h : fill ≤ 5) :
    (fieldBits 6 g).take (6 - fill) ++ List.replicate fill false
      = fieldBits 6 ((g >>> fill) <<< fill) := by
  interval_cases fill <;> revert g <;> decide

theorem shifted_eq_iff {g : BitVec 6} {fill : Nat} (h : fill ≤ 5) :
    (g >>> fill) <<< fill = g ↔ g.toNat % 2 ^ fill = 0 := by
  interval_cases fill <;> revert g <;> decide

/-- The bits of a text less its fill need exactly the fill as padding. -/
theorem padBits_of_fill {n fill : Nat} (h : fill ≤ 5) (hn : fill ≤ 6 * n) :
    padBits (6 * n - fill) = fill := by
  rw [padBits]
  omega

/-- The bits of a text less its fill, armored again: the last character loses its trimmed bits. -/
theorem armorText_of_trimmed {t : Text} {bits : Bits} {g : BitVec 6} {fill : Nat}
    (hbits : armorBits t = some bits) (h : fill ≤ 5) :
    armorText ((bits ++ fieldBits 6 g).take (6 * (t.length + 1) - fill))
      = t ++ [enc6 ((g >>> fill) <<< fill)] := by
  have hlen := armorBits_length hbits
  have hpad : padBits ((bits ++ fieldBits 6 g).take (6 * (t.length + 1) - fill)).length = fill := by
    rw [List.length_take_of_le (by simp [hlen]; omega)]
    exact padBits_of_fill h (by omega)
  have htake : 6 * (t.length + 1) - fill = bits.length + (6 - fill) := by omega
  rw [armorText, hpad, htake, List.take_length_add_append, List.append_assoc, trimmed_group h]
  exact armorGroups_of_armorBits (armorBits_append_singleton hbits (dec6_enc6 _))

/-- Settles O23: the decoded bits, less the fill, are armored as the same text but for its last
character (`armorText_of_trimmed`). -/
theorem reencodingClearsOnlyTrimmedBits : Obligations.ReencodingClearsOnlyTrimmedBits := by
  intro s htext hfill hcap hchars hle
  obtain ⟨bits, hbits, hlength, -⟩ := armorBits_spec s.t hchars
  have hpad := padBits_of_fill hfill hle
  have hlen : (bits.take (6 * s.t.length - s.fill.toNat)).length
      = 6 * s.t.length - s.fill.toNat :=
    List.length_take_of_le (by omega)
  have hchars' : (armorText (bits.take (6 * s.t.length - s.fill.toNat))).length = s.t.length := by
    rw [armorText_length, hlen, hpad]
    omega
  refine ⟨_, _, exec_armDec_of_le hfill hcap hbits hle,
    exec_armEnc_of_le (by rwa [← armorText_length, hchars']), rfl, rfl, ?fill, hchars', ?text⟩
  case fill => simp [hlen, hpad]
  case text =>
    obtain ht | ⟨init, c, ht⟩ := List.eq_nil_or_concat s.t
    · simp [ht]
    rw [List.concat_eq_append] at ht
    simp only [ht, List.forall_mem_append, List.forall_mem_singleton] at hchars
    obtain ⟨initBits, hinit, -⟩ := armorBits_spec init hchars.1
    obtain ⟨g, hg⟩ := Option.ne_none_iff_exists'.mp hchars.2
    obtain rfl : initBits ++ fieldBits 6 g = bits :=
      Option.some.inj ((armorBits_append_singleton hinit hg).symm.trans (ht ▸ hbits))
    have hu := armorText_of_trimmed (g := g) hinit hfill
    simp only [ht, List.length_append, List.length_singleton, hu]
    refine ⟨fun j hj => ?_, ?_⟩
    · rw [List.getElem?_append_left (by omega), List.getElem?_append_left (by omega)]
    · intro c' g' hc' hg'
      obtain rfl : c = c' := by simpa using hc'
      obtain rfl : g = g' := Option.some.inj (hg.symm.trans hg')
      refine ⟨by simp, ?_⟩
      rw [← shifted_eq_iff hfill, List.append_cancel_left_eq, List.singleton_inj]
      exact ⟨fun h => enc6_injective (h.trans (enc6_of_dec6 hg).symm),
        fun h => (congrArg enc6 h).trans (enc6_of_dec6 hg)⟩

end Machine

/-! ### The registries (R9, R10, R180) -/

namespace Config

theorem mem_of_lookup {α β : Type} [DecidableEq α] {key : α} {v : β} {l : List (α × β)}
    (h : lookup key l = some v) : (key, v) ∈ l := by
  induction l with
  | nil => cases h
  | cons e rest ih =>
    rw [lookup] at h
    split_ifs at h with hk
    · cases h; exact hk ▸ List.mem_cons_self
    · exact List.mem_cons_of_mem _ (ih h)

/-- A registered size is one of the fixed ones, or an open entry's. -/
theorem msgReg_cases {c : Config} {tid : BitVec 6} {r : SizeRange} (h : c.msgReg tid = some r) :
    r = ⟨168#10, 168#10⟩ ∨ r = ⟨312#10, 312#10⟩ ∨ (tid, r) ∈ c.openTypes := by
  unfold msgReg at h
  split_ifs at h
  · exact .inl (Option.some.inj h).symm
  · exact .inr (.inl (Option.some.inj h).symm)
  · exact .inr (.inr (mem_of_lookup h))

theorem msgReg_bounds {c : Config} (hc : c.wf) {tid : BitVec 6} {r : SizeRange}
    (h : c.msgReg tid = some r) :
    6 ≤ r.min.toNat ∧ r.min.toNat ≤ r.max.toNat ∧ r.max.toNat ≤ 936 := by
  obtain ⟨-, -, -, -, -, -, -, hopen, -⟩ := hc
  obtain rfl | rfl | hmem := msgReg_cases h
  · decide
  · decide
  · exact hopen _ hmem

theorem isCarrier_iff {c : Config} {tag : Text} :
    c.isCarrier tag = true ↔ tag = c.carrierTag1 ∨ tag = c.carrierTag2 := by
  simp [isCarrier]

theorem tagReg_tagZZZ {c : Config} (h1 : c.carrierTag1 ≠ tagZZZ) (h2 : c.carrierTag2 ≠ tagZZZ) :
    c.tagReg tagZZZ = none := by
  have hcarrier : ¬ c.isCarrier tagZZZ = true := by
    rw [isCarrier_iff]
    exact fun h => h.elim h1.symm h2.symm
  rw [tagReg, if_neg hcarrier, if_pos rfl]

end Config

namespace Machine

/-- Settles O24: the fixed entries by their place before the open ones, the open ones and the
layouts by `Config.wf`. -/
theorem registriesHoldTheFixedEntries : Obligations.RegistriesHoldTheFixedEntries := by
  intro c hc
  obtain ⟨-, -, hlen1, hlen2, hne, hzzz1, hzzz2, -, hlayouts⟩ := id hc
  refine ⟨fun tag => Config.isCarrier_iff, hne, hlen1, hlen2,
    tagReg_of_isCarrier (Config.isCarrier_iff.mpr (.inl rfl)),
    tagReg_of_isCarrier (Config.isCarrier_iff.mpr (.inr rfl)), Config.tagReg_tagZZZ hzzz1 hzzz2,
    fun _ => c.msgReg_of_toNat_eq_1_2_3, fun _ => c.msgReg_of_toNat_eq_19,
    fun _ => c.msgReg_of_unregistrable, fun tid r hreg => ?_⟩
  obtain ⟨hmin, hle, hmax⟩ := Config.msgReg_bounds hc hreg
  obtain ⟨fields, hlayout, hfits⟩ := Config.layout_of_msgReg hlayouts hreg
  exact ⟨hmin, hle, hmax, fields, hlayout, Config.layoutFits_iff.mp hfits⟩

/-! ### A message built at its declared size (R189) -/

/-- The first six bits of a sequence, written with a type ID, name that type. -/
theorem typeId_bitWrite {b : Bits} (tid : BitVec 6) (h : 6 ≤ b.length) :
    typeId (bitWrite b 0 6 (tid.setWidth 64)) = tid := by
  rw [typeId, bitRead_bitWrite b 0 6 _ (by omega)]
  apply BitVec.eq_of_toNat_eq
  simp only [BitVec.toNat_setWidth, BitVec.toNat_ofNat]
  omega

/-- Settles O29: the size fits the capacity, the six bits fit the size, and the written bits name
the type. -/
theorem builtMessageDispatchesToItsType : Obligations.BuiltMessageDispatchesToItsType := by
  intro s tid n hwf hreg hval
  obtain ⟨hmin, -, hmax⟩ := Config.msgReg_bounds hwf hreg
  obtain ⟨hbcap, -⟩ := hwf
  have hn : (n.setWidth 16).toNat = n.toNat := BitVec.toNat_setWidth_of_le (by decide)
  have hzeros : (List.replicate (n.setWidth 16).toNat false).length = n.toNat := by simp [hn]
  have hfield : 6 ≤ (List.replicate (n.setWidth 16).toNat false).length := hmin.trans hzeros.ge
  have hlen := (bitWrite_length _ 0 6 s.val (by omega)).trans hzeros
  have htype := typeId_bitWrite tid hfield
  rw [← hval] at htype
  have hcap : (n.setWidth 16).toNat ≤ s.cfg.bcap := hn.trans_le (hmax.trans hbcap)
  refine ⟨_, _, _, exec_bfInit_of_le hcap, exec_bfPack_of_le hfield,
    exec_aisDispatch_of_fits (r := ⟨n, n⟩) ?_ ?_ ?_, rfl, htype, rfl⟩
  · exact hmin.trans hlen.ge
  · exact (congrArg s.cfg.msgReg htype).trans hreg
  · exact sizeFits_iff.mpr ⟨hlen.ge, hlen.le⟩

end Machine

end Sys2Proof
end

section
/-!
The sentence envelope, continued (spec/43_nmea.md R204 to R220): the parse that ends `OK`, the
round trips of parse and render, and the detection of one changed byte.
-/
namespace Sys2Proof.Machine

open Sys2Proof.Claims

/-! ### A parse that ends `OK` (R204 step 11) -/

section Parsed

variable {s t : State} {x : Sentence}

theorem exec_nmeaParse_of_ok_none (h : parseLine s.cfg s.t = .ok ⟨x, none⟩) :
    exec .nmeaParse s = .next { s with sent := x, cvalid := false, status := 0#8 } := by
  rw [exec, execNmeaParse, h]
  rfl

theorem exec_nmeaParse_of_ok_some {c : Carrier} (h : parseLine s.cfg s.t = .ok ⟨x, some c⟩) :
    exec .nmeaParse s
      = .next { s with sent := x, carr := c, cvalid := true, status := 0#8 } := by
  rw [exec, execNmeaParse, h]
  rfl

/-- A parse that ends `OK` has delivered what `parseLine` answers. -/
theorem exec_nmeaParse_ok (h : exec .nmeaParse s = .next t) (hok : t.status = 0#8) :
    ∃ carr, parseLine s.cfg s.t = .ok ⟨t.sent, carr⟩ := by
  cases hline : parseLine s.cfg s.t with
  | error e =>
    cases e with
    | plain e =>
      obtain rfl := Host.Outcome.next.inj ((exec_nmeaParse_of_plain hline).symm.trans h)
      have he : e.code = 0#4 := statusWord_eq_zero.mp hok
      exact (parseLine_ne_plain_ok ((Err.code_eq_zero e).mp he ▸ hline)).elim
    | checksum rx computed =>
      obtain rfl := Host.Outcome.next.inj ((exec_nmeaParse_of_checksum hline).symm.trans h)
      exact nomatch hok
  | ok p =>
    obtain ⟨x, carr⟩ := p
    cases carr with
    | none =>
      obtain rfl := Host.Outcome.next.inj ((exec_nmeaParse_of_ok_none hline).symm.trans h)
      exact ⟨none, rfl⟩
    | some c =>
      obtain rfl := Host.Outcome.next.inj ((exec_nmeaParse_of_ok_some hline).symm.trans h)
      exact ⟨some c, rfl⟩

/-- What `parseLine` answers, the command delivers. -/
theorem exec_nmeaParse_of_ok {carr : Option Carrier} (h : parseLine s.cfg s.t = .ok ⟨x, carr⟩) :
    ∃ t, exec .nmeaParse s = .next t ∧ t.status = 0#8 ∧ t.sent = x := by
  cases carr with
  | none => exact ⟨_, exec_nmeaParse_of_ok_none h, rfl, rfl⟩
  | some c => exact ⟨_, exec_nmeaParse_of_ok_some h, rfl, rfl⟩

end Parsed

/-- A well-shaped line delivers its sentence when its tag and fields pass the registry check. -/
theorem parseLine_lineOf_ok {cfg : Config} {x : Sentence} {carr : Option Carrier}
    (hs : StartToken x.start) (ha : AddressShape x.talker x.tag) (hp : PlainSentence x)
    (h : checkTag cfg x.tag x.fields = .ok carr) : parseLine cfg (lineOf x) = .ok ⟨x, carr⟩ :=
  parseLine_ok.mpr ⟨isStartToken_iff.mpr hs, addressRenders_iff.mpr ha, Sentence.plain_iff.mpr hp,
    h, (lineText_eq_lineOf x).symm⟩

/-- Settles O30: the registry check gives carrier registers exactly for a carrier tag. -/
theorem parseDeliversAWellFormedLine : Obligations.ParseDeliversAWellFormedLine := by
  intro s x hs ha hp hreg ht
  refine ⟨fun hcarrier => exec_nmeaParse_of_ok_none ?_,
    fun c hcarrier hgram => exec_nmeaParse_of_ok_some ?_⟩
  · exact ht ▸ parseLine_lineOf_ok hs ha hp (checkTag_ok.mpr ⟨hreg, .inr ⟨hcarrier, rfl⟩⟩)
  · exact ht ▸ parseLine_lineOf_ok hs ha hp (checkTag_ok.mpr
      ⟨hreg, .inl ⟨hcarrier, c, carrierFields_iff_grammar.mpr hgram, rfl⟩⟩)

/-- Settles O42: a parse only copies substrings (`parseLine_size`). -/
theorem parsedSentenceFitsTheLine : Obligations.ParsedSentenceFitsTheLine := by
  intro s t h hok
  obtain ⟨carr, hline⟩ := exec_nmeaParse_ok h hok
  exact parseLine_size hline

/-- Settles O36: the ways a parse ends, of which those with a status other than `OK` keep the
registers. -/
theorem failedParseKeepsTheRegisters : Obligations.FailedParseKeepsTheRegisters := by
  intro s
  obtain ⟨t, h⟩ := exec_answers .nmeaParse s
  refine ⟨t, h, ?_⟩
  cases exec_end h with
  | raised _ _ hparse => exact absurd rfl hparse
  | parsed | parsedCarrier => exact ⟨fun _ => rfl, fun hok => absurd rfl hok⟩
  | unparsed => exact ⟨fun _ => rfl, fun _ => rfl⟩
  | wrongChecksum => exact ⟨fun hsum => absurd rfl hsum, fun _ => rfl⟩

/-! ### The round trips of parse and render (R219) -/

@[simp] theorem lineText_length (start : Byte) (body : Text) :
    (lineText start body).length = 1 + body.length + 3 := by
  simp [lineText, hex2]
  omega

/-- Settles O39: what a parse delivers is what a render of the same line starts from
(`parseLine_ok`, `renderLine_ok`). -/
theorem renderAfterParseRestoresTheLine : Obligations.RenderAfterParseRestoresTheLine := by
  intro s t hcap h hok
  obtain ⟨carr, hline⟩ := exec_nmeaParse_ok h hok
  obtain ⟨hs, ha, hp, hcheck, ht⟩ := parseLine_ok.mp hline
  rw [ht, lineText_length] at hcap
  have hrender : renderLine t.cfg t.sent = .ok (lineText t.sent.start (lineBody t.sent)) := by
    rw [exec_cfg h]
    exact renderLine_ok.mpr ⟨hs, ha, hp, ⟨carr, hcheck⟩, hcap, rfl⟩
  exact ⟨_, exec_nmeaRender_of_ok hrender, rfl, ht.symm⟩

/-- Settles O40: a render writes a line that parses to the registers it was written from. -/
theorem parseAfterRenderRestoresTheSentence : Obligations.ParseAfterRenderRestoresTheSentence := by
  intro s t h hok
  cases hline : renderLine s.cfg s.sent with
  | error e =>
    obtain rfl := Host.Outcome.next.inj ((exec_nmeaRender_of_error hline).symm.trans h)
    have he : e.code = 0#4 := statusWord_eq_zero.mp hok
    exact (renderLine_ne_ok ((Err.code_eq_zero e).mp he ▸ hline)).elim
  | ok line =>
    obtain rfl := Host.Outcome.next.inj ((exec_nmeaRender_of_ok hline).symm.trans h)
    obtain ⟨hs, ha, hp, ⟨carr, hcheck⟩, -, ht⟩ := renderLine_ok.mp hline
    exact exec_nmeaParse_of_ok (parseLine_ok.mpr ⟨hs, ha, hp, hcheck, ht⟩)

/-! ### The address (R208) -/

theorem takeWhile_ne_of_not_mem {c : Byte} {l : Text} (h : c ∉ l) :
    l.takeWhile (· ≠ c) = l :=
  List.takeWhile_eq_self_iff.mpr fun x hx => by simpa using fun he : x = c => h (he ▸ hx)

theorem takeWhile_ne_of_cut {c : Byte} {l : Text} (post : Text) (h : c ∉ l) :
    (l ++ c :: post).takeWhile (· ≠ c) = l := by
  rw [List.takeWhile_append_of_pos fun x hx => by simpa using fun he : x = c => h (he ▸ hx)]
  simp

theorem splitAddress_eq_none {addr : Text} (hp : addr.head? ≠ some Ascii.upperP)
    (hlen : addr.length ≠ 5) : splitAddress addr = none := by
  rw [splitAddress, if_neg hp, if_neg hlen]

/-- The address of a span is its text before the first comma. -/
theorem parseSpan_of_bad_address {cfg : Config} {start : Byte} {span : Text} (rest : Text)
    (h : splitAddress (span.takeWhile (· ≠ Ascii.comma)) = none) :
    parseSpan cfg (start :: (span ++ rest)) start (span.length + 1)
      = .error (.plain .format) := by
  obtain hc | ⟨addr, body, rfl, hc⟩ := cut_at Ascii.comma span
  · rw [takeWhile_ne_of_not_mem hc] at h
    rw [parseSpan_bare hc, h]
  · rw [takeWhile_ne_of_cut body hc] at h
    rw [parseSpan_comma hc, h]

/-- Settles O35: with a right checksum the parse comes to the address, which does not split. -/
theorem parseRefusesOtherAddressLengths : Obligations.ParseRefusesOtherAddressLengths := by
  intro s start span hs hstar ht hp hlen
  refine exec_nmeaParse_of_plain (e := .format) ?_
  rw [ht, ← hex2_eq_hexUpper, hex2, parseLine_cut (isStartToken_iff.mpr hs) hstar
    (hexValue_hexDigit _) (hexValue_hexDigit _), nibbles_append, xor8_eq_xorAll,
    if_neg (not_not_intro rfl)]
  exact parseSpan_of_bad_address _ (splitAddress_eq_none hp hlen)

/-! ### One changed byte (R220) -/

theorem xor8_replace_ne {pre post : Text} {c y : Byte} (h : y ≠ c) :
    xor8 (pre ++ y :: post) ≠ xor8 (pre ++ c :: post) := by
  simpa [xor8] using h

/-- Settles O41: the span of the parsed line is the text before the last three bytes; another byte
in it changes the exclusive OR, and a delimiter in it makes a window longer than two. -/
theorem oneChangedByteIsDetected : Obligations.OneChangedByteIsDetected := by
  intro s t start c y pre post window h hok ht hwindow hy
  obtain ⟨carr, hline⟩ := exec_nmeaParse_ok h hok
  obtain ⟨start', span, a, b, hi, lo, hshape, hs, hstar, ha, hb⟩ :=
    parseLine_shape (cfg := s.cfg) (t := s.t) (by rw [hline]; simp)
  obtain ⟨rfl, hrest⟩ := List.cons.inj (ht.symm.trans hshape)
  obtain ⟨rfl, hend⟩ := List.append_inj' hrest (by simp [hwindow])
  obtain ⟨-, rfl⟩ := List.cons.inj hend
  rw [hshape, parseLine_cut hs hstar ha hb] at hline
  split_ifs at hline with hsum
  replace hsum := not_not.mp hsum
  simp only [List.mem_append, List.mem_cons, not_or] at hstar
  obtain ⟨hpre, -, hpost⟩ := hstar
  by_cases hdelim : y = Ascii.star
  · subst hdelim
    have hbad : parseLine s.cfg (start :: (pre ++ Ascii.star :: (post ++ [Ascii.star, a, b])))
        = .error (.plain .format) :=
      parseLine_bad_window hs (checksumWindow_of_bad_window hpre (.inl (by simp)))
    refine ⟨_, exec_nmeaParse_of_plain (s := { s with t := _ }) (by simpa using hbad), ?_, ?_⟩
    · exact fun h => absurd rfl h
    · exact fun _ => rfl
  · have hspan : Ascii.star ∉ pre ++ y :: post := by
      simp [hpre, hpost, Ne.symm hdelim]
    have hne : hi ++ lo ≠ xor8 (pre ++ y :: post) := hsum ▸ (xor8_replace_ne hy).symm
    have hbad : parseLine s.cfg (start :: (pre ++ y :: post ++ [Ascii.star, a, b]))
        = .error (.checksum (hi ++ lo) (xor8 (pre ++ y :: post))) :=
      (parseLine_cut hs hspan ha hb).trans (if_pos hne)
    refine ⟨_, exec_nmeaParse_of_checksum (s := { s with t := _ }) hbad, fun _ => ⟨rfl, ?_⟩, ?_⟩
    · rwa [State.setChecksums_csRx, State.setChecksums_csCalc]
    · exact fun h => absurd h hdelim

end Sys2Proof.Machine
end

section
/-!
The carrier formatter and the reassembly (spec/44_fragment.md R241, R248, R249): decimal numbers
and their digits, how `FRAG.FORM` ends, and the run of the commands of one reassembly.
-/
namespace Sys2Proof

open Sys2Proof.Machine Sys2Proof.Claims

/-! ### The command words (R91, R94) -/

theorem encode_fragForm : encode .fragForm = 0xB8000000#32 := by decide

theorem encode_nmeaParse : encode .nmeaParse = 0x80000000#32 := by decide

namespace Machine

/-! ### Decimal numbers (spec/00_scope.md R15 `dec`) -/

theorem decDigit_eq_digitChar {d : Nat} (h : d < 10) :
    decDigit d = BitVec.ofNat 8 d.digitChar.toNat := by
  interval_cases d <;> rfl

theorem decDigit_toNat {d : Nat} (h : d < 10) : (decDigit d).toNat = 0x30 + d := by
  rw [decDigit, BitVec.toNat_ofNat]
  omega

theorem decDigits_of_lt {fuel n : Nat} (h : n < 10) : decDigits (fuel + 1) n = [decDigit n] :=
  if_pos h

theorem decDigits_of_ge {fuel n : Nat} (h : 10 ≤ n) :
    decDigits (fuel + 1) n = decDigits fuel (n / 10) ++ [decDigit (n % 10)] :=
  if_neg (Nat.not_lt.mpr h)

/-- With fuel above the number, the digits are the library's. -/
theorem decDigits_eq_decimal {fuel n : Nat} (h : n < fuel) : decDigits fuel n = decimal n := by
  induction fuel generalizing n with
  | zero => omega
  | succ fuel ih =>
    obtain hn | hn := Nat.lt_or_ge n 10
    · rw [decDigits_of_lt hn, decDigit_eq_digitChar hn, decimal, Nat.toDigits_of_lt_base hn]
      rfl
    · rw [decDigits_of_ge hn, ih (by omega), decDigit_eq_digitChar (Nat.mod_lt n (by decide)),
        decimal, decimal, Nat.toDigits_of_base_le (by decide) hn, List.map_append]
      rfl

theorem dec_eq_decimal (n : Nat) : dec n = decimal n := decDigits_eq_decimal n.lt_succ_self

theorem dec_of_lt {n : Nat} (h : n < 10) : dec n = [decDigit n] := decDigits_of_lt h

/-- The digits of a number are digits, and write that number. -/
theorem decDigits_read {fuel n : Nat} (h : n < fuel) :
    (∀ c ∈ decDigits fuel n, Digit c) ∧ digitsValue (decDigits fuel n) = n := by
  induction fuel generalizing n with
  | zero => omega
  | succ fuel ih =>
    obtain hn | hn := Nat.lt_or_ge n 10
    · have hd := decDigit_toNat hn
      simp only [decDigits_of_lt hn, List.forall_mem_singleton, digitsValue, List.foldl_cons,
        List.foldl_nil, Digit, hd]
      omega
    · obtain ⟨hdigits, hvalue⟩ := ih (n := n / 10) (by omega)
      have hd := decDigit_toNat (Nat.mod_lt n (show 0 < 10 by decide))
      rw [digitsValue] at hvalue
      simp only [decDigits_of_ge hn, List.forall_mem_append, List.forall_mem_singleton, digitsValue,
        List.foldl_append, hvalue, List.foldl_cons, List.foldl_nil, hd]
      exact ⟨⟨hdigits, by omega⟩, by omega⟩

theorem dec_length_pos (n : Nat) : 1 ≤ (dec n).length := by
  obtain hn | hn := Nat.lt_or_ge n 10
  · simp [dec_of_lt hn]
  · simp [dec, decDigits_of_ge hn]

/-! ### The formed fields read back (R241, R249) -/

theorem countField_dec (n : BitVec 8) : countField (dec n.toNat) = some n := by
  obtain ⟨hdigits, hvalue⟩ := decDigits_read n.toNat.lt_succ_self
  have hlen : (dec n.toNat).length ≤ 3 := by
    rw [dec_eq_decimal, decimal, List.length_map]
    exact Nat.toDigits_length 10 n.toNat 3 (by decide) (by omega)
  exact countField_iff_countText.mpr ⟨dec_length_pos _, hlen, hdigits,
    hvalue.trans_le (by omega), hvalue.symm⟩

theorem seqField_formed {present : Bool} {n : BitVec 4} (h : present = true → n.toNat ≤ 9) :
    seqField (if present = true then dec n.toNat else [])
      = some (present, if present = true then n else 0#4) := by
  cases present with
  | false => rfl
  | true =>
    have hn : n.toNat < 10 := Nat.lt_succ_of_le (h rfl)
    have hd := decDigit_toNat hn
    exact seqField_eq_some.mpr
      (.inr ⟨_, dec_of_lt hn, by omega, rfl, by simp only [if_true]; omega⟩)

theorem chanField_formed (present : Bool) (chan : Byte) :
    chanField (if present = true then [chan] else [])
      = some (present, if present = true then chan else 0#8) := by
  cases present <;> rfl

theorem fillField_dec {n : BitVec 3} (h : n.toNat ≤ 5) : fillField (dec n.toNat) = some n := by
  have hd := decDigit_toNat (show n.toNat < 10 by omega)
  exact fillField_eq_some.mpr ⟨_, dec_of_lt (by omega), by omega, by omega, by omega⟩

theorem carrierFields_formFields {c : Carrier} {fill : BitVec 3} (payload : Text)
    (hseq : c.seqPresent = true → c.seq.toNat ≤ 9) (hfill : fill.toNat ≤ 5) :
    carrierFields (formFields c payload fill) =
      some { c with
        seq := if c.seqPresent = true then c.seq else 0#4
        chan := if c.chanPresent = true then c.chan else 0#8
        fill := fill } :=
  carrierFields_eq_some.mpr ⟨_, _, _, _, _, _, rfl, countField_dec c.count, countField_dec c.index,
    seqField_formed hseq, chanField_formed c.chanPresent c.chan, fillField_dec hfill⟩

/-! ### How `FRAG.FORM` ends, with the whole next state (R249) -/

theorem formFields_eq_carrierTextsOf (s : State) :
    formFields s.carr s.t s.fill = carrierTextsOf s := by
  simp only [formFields, carrierTextsOf, dec_eq_decimal]

theorem formedSentence_eq (s : State) :
    formedSentence s = { s.sent with start := 0x21#8, fields := carrierTextsOf s } := by
  rw [formedSentence, formFields_eq_carrierTextsOf]

theorem formedSentence_size (s : State) :
    (formedSentence s).size = s.sent.talker.length + s.sent.tag.length
      + ((carrierTextsOf s).map List.length).sum := by
  rw [formedSentence_eq, Sentence.size]

section Forming

variable {s : State}

theorem exec_fragForm_of_not_carrier (h : s.cfg.isCarrier s.sent.tag = false) :
    exec .fragForm s = .next { s with status := 8#8 } :=
  if_pos h

variable (hcarrier : s.cfg.isCarrier s.sent.tag = true)
include hcarrier

theorem exec_fragForm_of_fill (h : 5 < s.fill.toNat) :
    exec .fragForm s = .next { s with status := 6#8 } := by
  rw [exec, execFragForm, if_neg (by simp [hcarrier]), if_pos h]
  rfl

variable (hfill : s.fill.toNat ≤ 5)
include hfill

theorem exec_fragForm_of_seq (hpresent : s.carr.seqPresent = true) (h : 9 < s.carr.seq.toNat) :
    exec .fragForm s = .next { s with status := 6#8 } := by
  rw [exec, execFragForm, if_neg (by simp [hcarrier]), if_neg (Nat.not_lt.mpr hfill),
    if_pos ⟨hpresent, h⟩]
  rfl

variable (hseq : s.carr.seqPresent = true → s.carr.seq.toNat ≤ 9)
include hseq

/-- After the three checks of R249 the capacity decides. -/
theorem exec_fragForm_of_checked :
    exec .fragForm s =
      if s.cfg.tcap < (formedSentence s).size then .next { s with status := 9#8 }
      else .next { s with sent := formedSentence s, cvalid := false, status := 0#8 } := by
  have hseq' : ¬ (s.carr.seqPresent = true ∧ 9 < s.carr.seq.toNat) := fun ⟨hpresent, h⟩ =>
    Nat.not_lt.mpr (hseq hpresent) h
  rw [exec, execFragForm, if_neg (by simp [hcarrier]), if_neg (Nat.not_lt.mpr hfill), if_neg hseq']
  rfl

end Forming

/-- A `FRAG.FORM` that ends `OK` has passed the checks and written the formed sentence. -/
theorem exec_fragForm_ok {s t : State} (h : exec .fragForm s = .next t) (hok : t.status = 0#8) :
    s.fill.toNat ≤ 5 ∧ (s.carr.seqPresent = true → s.carr.seq.toNat ≤ 9)
      ∧ t.sent = formedSentence s := by
  simp only [exec, execFragForm] at h
  split_ifs at h with hcarrier hfill hseq hcap <;> cases h
  · exact nomatch hok
  · exact nomatch hok
  · exact nomatch hok
  · exact nomatch hok
  · exact ⟨Nat.not_lt.mp hfill, fun hpresent => Nat.not_lt.mp fun h => hseq ⟨hpresent, h⟩, rfl⟩

/-- Settles O46: one outcome for each check of R249 in its order, then the capacity. -/
theorem fragFormWritesTheCarrierFields : Obligations.FragFormWritesTheCarrierFields := by
  refine fun s => ⟨encode_fragForm, exec_fragForm_of_not_carrier, exec_fragForm_of_fill,
    exec_fragForm_of_seq, fun hcarrier hfill hseq => ?_⟩
  rw [exec_fragForm_of_checked hcarrier hfill hseq, ← formedSentence_size, ← formedSentence_eq]
  exact ⟨fun hcap => if_pos hcap, fun hcap => if_neg (Nat.not_lt.mpr hcap)⟩

/-- Settles O47: each formed field is read back by its own reader. -/
theorem formedFieldsReadBackAsTheRegisters : Obligations.FormedFieldsReadBackAsTheRegisters := by
  intro s t h hok
  obtain ⟨hfill, hseq, hsent⟩ := exec_fragForm_ok h hok
  rw [hsent]
  exact carrierFields_formFields s.t hseq hfill

/-! ### The step of an idle block (R44, R301, R321) -/

theorem step_of_idle {s : State} {item : HostItem} {rest : List HostItem} (hidle : s.busy = false)
    (hp : s.pending = item :: rest) : step s = takeItem item { s with pending := rest } := by
  rw [step, hp]
  exact if_pos (by simp [mayPresent, hidle])

theorem takeItem_command {cw : Word} {i : Instr} (h : decode cw = .ok i) (s : State) :
    takeItem (.command cw) s = exec i s := by
  rw [takeItem, issueCommand, h]

theorem step_of_command {s : State} {i : Instr} {rest : List HostItem} (hidle : s.busy = false)
    (hwf : i.wellFormed = true) (hp : s.pending = .command (encode i) :: rest) :
    step s = exec i { s with pending := rest } :=
  (step_of_idle hidle hp).trans (takeItem_command (decode_encode hwf) _)

theorem run_succ {s t : State} (h : step s = .next t) (k : Nat) :
    Sys2Proof.core.run (k + 1) s = Sys2Proof.core.run k t := by
  have h' : Sys2Proof.core.step s = .next t := h
  simp only [Host.Core.run, h']

/-! ### The run of a reassembly (R248) -/

theorem idle_of_status_ok {s : State} (h : s.status = 0#8) : s.busy = false := by
  rw [State.busy, h]
  decide

/-- An idle block in the middle of a reassembly: no failure recorded, the text so far in the
accumulator, and the items the host has yet to present. -/
structure Collecting (cfg : Config) (text : Text) (items : List HostItem) (s : State) : Prop where
  cfg_eq : s.cfg = cfg
  idle : s.busy = false
  noError : s.aerrc = 0#4
  accumulated : s.a = text
  pending_eq : s.pending = items

/-- The items of one line: load, `NMEA.PARSE`, `FRAG.ADD`. -/
def lineItems (line : Text) : List HostItem :=
  [.write (.t line), .command (encode .nmeaParse), .command (encode .fragAdd)]

theorem reassemblyItems_eq (lines : List Text) :
    reassemblyItems lines = .command (encode .fragBegin)
      :: (lines.flatMap lineItems ++ [.command (encode .fragEnd)]) := by
  rw [encode_fragBegin, encode_fragEnd]
  rfl

/-- A carrier sentence has the payload field (R241). -/
theorem carrierFields_payload {fields : List Text} {c : Carrier}
    (h : carrierFields fields = some c) : fields[4]? = some (fields.getD 4 []) := by
  obtain ⟨_, _, _, _, _, _, rfl, -⟩ := carrierFields_eq_some.mp h
  rfl

theorem parseLine_carrierFields {cfg : Config} {line : Text} {x : Sentence} {c : Carrier}
    (h : parseLine cfg line = .ok ⟨x, some c⟩) : carrierFields x.fields = some c := by
  obtain ⟨-, -, -, hcheck, -⟩ := parseLine_ok.mp h
  obtain ⟨-, ⟨-, c', hfields, hc⟩ | ⟨-, hc⟩⟩ := checkTag_ok.mp hcheck
  · cases hc; exact hfields
  · cases hc

section Collected

variable {cfg : Config} {text : Text} {rest : List HostItem} {s : State}

theorem step_begin (hcfg : s.cfg = cfg) (hidle : s.busy = false)
    (hp : s.pending = .command (encode .fragBegin) :: rest) :
    ∃ t, step s = .next t ∧ Collecting cfg [] rest t :=
  ⟨_, (step_of_command hidle rfl hp).trans (exec_fragBegin _),
    ⟨hcfg, idle_of_status_ok rfl, rfl, rfl, rfl⟩⟩

theorem step_load {line : Text} (hs : Collecting cfg text (.write (.t line) :: rest) s)
    (hlen : line.length ≤ cfg.tcap) :
    ∃ t, step s = .next t ∧ Collecting cfg text rest t ∧ t.t = line := by
  obtain ⟨rfl, hidle, herr, ha, hp⟩ := hs
  exact ⟨_, (step_of_idle hidle hp).trans (if_pos hlen), ⟨rfl, hidle, herr, ha, rfl⟩, rfl⟩

theorem step_parse {x : Sentence} {c : Carrier}
    (hs : Collecting cfg text (.command (encode .nmeaParse) :: rest) s)
    (hline : parseLine cfg s.t = .ok ⟨x, some c⟩) :
    ∃ t, step s = .next t ∧ Collecting cfg text rest t ∧ t.sent = x ∧ t.carr = c
      ∧ t.cvalid = true := by
  obtain ⟨rfl, hidle, herr, ha, hp⟩ := hs
  have hexec := exec_nmeaParse_of_ok_some (s := { s with pending := rest }) hline
  exact ⟨_, (step_of_command hidle rfl hp).trans hexec, ⟨rfl, idle_of_status_ok rfl, herr, ha, rfl⟩,
    rfl, rfl, rfl⟩

theorem step_add {p : Text} (hs : Collecting cfg text (.command (encode .fragAdd) :: rest) s)
    (hcarr : s.cvalid = true) (hpayload : s.sent.fields[4]? = some p)
    (hcap : (text ++ p).length ≤ cfg.tcap) :
    ∃ t, step s = .next t ∧ Collecting cfg (text ++ p) rest t ∧ t.aany = true
      ∧ t.afill = s.carr.fill := by
  obtain ⟨rfl, hidle, herr, rfl, hp⟩ := hs
  have hexec := exec_fragAdd_of_le (s := { s with pending := rest }) herr hcarr hpayload
    (List.length_append ▸ hcap)
  exact ⟨_, (step_of_command hidle rfl hp).trans hexec,
    ⟨rfl, idle_of_status_ok rfl, herr, rfl, rfl⟩, rfl, rfl⟩

theorem step_end (hs : Collecting cfg text (.command (encode .fragEnd) :: rest) s)
    (hany : s.aany = true) :
    ∃ t, step s = .next t ∧ t.pending = rest ∧ t.status = 0#8 ∧ t.t = text
      ∧ t.fill = s.afill := by
  obtain ⟨rfl, hidle, herr, rfl, hp⟩ := hs
  have hexec := exec_fragEnd_of_any (s := { s with pending := rest }) herr hany
  exact ⟨_, (step_of_command hidle rfl hp).trans hexec, rfl, rfl, rfl, rfl⟩

/-- Three steps take one carrier line and add its payload. -/
theorem run_lineItems {line : Text} {x : Sentence} {c : Carrier}
    (hs : Collecting cfg text (lineItems line ++ rest) s) (hlen : line.length ≤ cfg.tcap)
    (hline : parseLine cfg line = .ok ⟨x, some c⟩)
    (hcap : (text ++ x.fields.getD 4 []).length ≤ cfg.tcap) (k : Nat) :
    ∃ t, Sys2Proof.core.run (k + 3) s = Sys2Proof.core.run k t
      ∧ Collecting cfg (text ++ x.fields.getD 4 []) rest t ∧ t.aany = true ∧ t.afill = c.fill := by
  obtain ⟨s₁, hload, hs₁, ht⟩ := step_load hs hlen
  obtain ⟨s₂, hparse, hs₂, rfl, rfl, hcarr⟩ := step_parse hs₁ (ht ▸ hline)
  have hpayload := carrierFields_payload (parseLine_carrierFields hline)
  obtain ⟨t, hadd, ht, hany, hfill⟩ := step_add hs₂ hcarr hpayload hcap
  exact ⟨t, (run_succ hload _).trans ((run_succ hparse _).trans (run_succ hadd k)), ht, hany, hfill⟩

end Collected

/-- The payloads of the lines, in order. -/
def payloads (frags : List (Text × Sentence × Carrier)) : Text :=
  (frags.map (fun f => f.2.1.fields.getD 4 [])).flatten

/-- Each fragment is a line that fits and parses to its sentence and its carrier registers. -/
def FragmentsParse (cfg : Config) (frags : List (Text × Sentence × Carrier)) : Prop :=
  ∀ f ∈ frags, f.1.length ≤ cfg.tcap ∧ parseLine cfg f.1 = .ok ⟨f.2.1, some f.2.2⟩

/-- Three steps for each line add the payloads in order. -/
theorem run_lines {cfg : Config} {frags : List (Text × Sentence × Carrier)} {text : Text}
    {rest : List HostItem} {s : State}
    (hs : Collecting cfg text ((frags.map (·.1)).flatMap lineItems ++ rest) s)
    (hfrags : FragmentsParse cfg frags) (hcap : (text ++ payloads frags).length ≤ cfg.tcap)
    (k : Nat) :
    ∃ t, Sys2Proof.core.run (k + 3 * frags.length) s = Sys2Proof.core.run k t
      ∧ Collecting cfg (text ++ payloads frags) rest t := by
  induction frags generalizing text s with
  | nil => exact ⟨s, rfl, by simpa [payloads] using hs⟩
  | cons f fs ih =>
    obtain ⟨⟨hlen, hline⟩, hfs⟩ := List.forall_mem_cons.mp hfrags
    have hpay : text ++ payloads (f :: fs) = text ++ f.2.1.fields.getD 4 [] ++ payloads fs := by
      simp [payloads]
    rw [hpay] at hcap ⊢
    have hcap' : (text ++ f.2.1.fields.getD 4 []).length ≤ cfg.tcap := by
      rw [List.length_append] at hcap
      omega
    simp only [List.map_cons, List.flatMap_cons, List.append_assoc] at hs
    obtain ⟨t, hrun, ht, -⟩ := run_lineItems hs hlen hline hcap' (k + 3 * fs.length)
    obtain ⟨u, hrun', hu⟩ := ih ht hfs hcap
    exact ⟨u, hrun.trans hrun', hu⟩

/-- Settles O48: `FRAG.BEGIN` starts an empty collection, each line adds its payload, and the last
line leaves its fill bits for `FRAG.END`. -/
theorem reassemblyConcatenatesInOrder : Obligations.ReassemblyConcatenatesInOrder := by
  intro s frags last rest hidle hlast hfrags hcap hp
  obtain ⟨init, rfl⟩ := List.getLast?_eq_some_iff.mp hlast
  obtain ⟨hinit, hlast⟩ := List.forall_mem_append.mp hfrags
  obtain ⟨hlen, hline⟩ := hlast last (List.mem_singleton_self last)
  have hpay : payloads (init ++ [last])
      = [] ++ payloads init ++ last.2.1.fields.getD 4 [] := by simp [payloads]
  change (payloads (init ++ [last])).length ≤ s.cfg.tcap at hcap
  rw [hpay] at hcap
  rw [reassemblyItems_eq] at hp
  simp only [List.map_append, List.flatMap_append, List.map_cons, List.map_nil, List.flatMap_cons,
    List.flatMap_nil, List.append_nil, List.append_assoc, List.cons_append, List.nil_append] at hp
  obtain ⟨s₁, hbegin, hs₁⟩ := step_begin rfl hidle hp
  have hcap' : ([] ++ payloads init).length ≤ s.cfg.tcap := by
    rw [List.length_append] at hcap
    omega
  obtain ⟨s₂, hlines, hs₂⟩ := run_lines hs₁ hinit hcap' 4
  obtain ⟨s₃, hlastLine, hs₃, hany, hfill⟩ := run_lineItems hs₂ hlen hline hcap 1
  obtain ⟨t, hend, hrest, hstatus, ht, hfill'⟩ := step_end hs₃ hany
  refine ⟨t, ?_, hrest, hstatus, ht.trans hpay.symm, hfill'.trans hfill⟩
  calc Sys2Proof.core.run (3 * (init ++ [last]).length + 2) s
      = Sys2Proof.core.run (4 + 3 * init.length + 1) s := by congr 1; simp; omega
    _ = Sys2Proof.core.run (4 + 3 * init.length) s₁ := run_succ hbegin _
    _ = Sys2Proof.core.run (1 + 3) s₂ := hlines
    _ = Sys2Proof.core.run (0 + 1) s₃ := hlastLine
    _ = .next t := run_succ hend 0

end Machine

end Sys2Proof
end

section
/-!
The host's moves and the whole machine (spec/10_state.md R44, spec/30_encoding.md R104,
spec/60_exceptions.md R262, R263, spec/70_reset_and_hazards.md R300 to R310): the step of each kind
of item, what the host reads and writes, the elements each command writes, and the first commands
after reset.
-/
namespace Sys2Proof.Machine

open Sys2Proof.Claims

/-! ### The step (R300, R301, R310) -/

/-- Settles O5. -/
theorem stepExecutesTheDecodedCommand : Obligations.StepExecutesTheDecodedCommand :=
  ⟨fun _ _ _ _ hidle hp hdecode => (step_of_idle hidle hp).trans (takeItem_command hdecode _),
    fun _ _ _ => step_of_idle, fun _ => ⟨fun _ => rfl, fun _ => rfl, rfl⟩⟩

theorem step_of_nothing_pending {s : State} (hp : s.pending = []) : step s = .next s := by
  rw [step, hp]

theorem step_of_busy {s : State} {item : HostItem} {rest : List HostItem}
    (hp : s.pending = item :: rest) (hitem : item ≠ .reset) (hbusy : s.busy = true) :
    step s = .refused .hostActsWhileBusy := by
  rw [step, hp]
  exact if_neg (by simp [mayPresent, hitem, hbusy])

/-- Settles O6. -/
theorem stepWaitsForTheHostAndRefusesIntrusion :
    Obligations.StepWaitsForTheHostAndRefusesIntrusion :=
  fun _ => ⟨step_of_nothing_pending, fun _ _ => step_of_busy⟩

theorem step_of_reset {s : State} {rest : List HostItem} (hp : s.pending = .reset :: rest) :
    step s = .next (assertReset { s with pending := rest }) := by
  rw [step, hp]
  exact if_pos (by simp [mayPresent])

/-- Settles O8: a reset may be presented at any time, and keeps the configuration and the list. -/
theorem resetItemRestoresEveryElement : Obligations.ResetItemRestoresEveryElement :=
  fun _ _ => step_of_reset

/-! ### Writes and reads (R44, R72) -/

/-- Settles O9: the writes of a sequence pass their length check; the others have none. -/
theorem hostWritesHaveTheTableEffects : Obligations.HostWritesHaveTheTableEffects := fun _ =>
  ⟨fun _ => rfl, fun _ => rfl, fun _ h => if_pos h, fun _ h => if_pos h, fun _ => rfl,
    fun _ h => if_pos h, fun _ h => if_pos h, fun _ h => if_pos h, fun _ => rfl, fun _ => rfl,
    fun _ => rfl, fun _ => rfl, fun _ => rfl, fun _ => rfl, fun _ => rfl⟩

theorem takeItem_read_of_some {e : Element} {s : State} {r : Reading}
    (h : hostRead e s = some r) : takeItem (.read e) s = .next s := by
  rw [takeItem, h]

theorem takeItem_read_of_none {e : Element} {s : State} (h : hostRead e s = none) :
    takeItem (.read e) s = .refused .hostReadPastEnd := by
  rw [takeItem, h]

/-- Every element but a single bit of `B` can be read. -/
theorem hostRead_some_of_ne_bit {e : Element} (h : ∀ i, e ≠ .bit i) (s : State) :
    ∃ r, hostRead e s = some r := by
  cases e with
  | bit i => exact absurd rfl (h i)
  | _ => exact ⟨_, rfl⟩

/-- A flag or a bit reads as the number 1 or 0. -/
theorem toNat_eq_ite (x : Bool) : x.toNat = if x = true then 1 else 0 :=
  Bool.cond_eq_ite x 1 0

theorem hostRead_bit_of_lt {i : Nat} {s : State} (h : i < s.b.length) :
    hostRead (.bit i) s = some (.number (if s.b[i] = true then 1 else 0)) := by
  rw [hostRead, List.getElem?_eq_getElem h, Option.map_some, toNat_eq_ite]

theorem hostRead_bit_of_ge {i : Nat} {s : State} (h : s.b.length ≤ i) :
    hostRead (.bit i) s = none := by
  rw [hostRead, List.getElem?_eq_none h, Option.map_none]

theorem number_flag (x : Bool) :
    some (Reading.number x.toNat) = some (.number (if x = true then 1 else 0)) := by
  rw [toNat_eq_ite]

/-- Settles O10: only the read of a bit beyond `BLEN` returns nothing. -/
theorem hostReadsHaveNoSideEffect : Obligations.HostReadsHaveNoSideEffect := by
  refine ⟨fun s rest hidle => ⟨fun e he hp => ?_, fun i hi hp => ?_, fun i hi hp => ?_⟩,
    fun s => ?_⟩
  · obtain ⟨r, hr⟩ := hostRead_some_of_ne_bit he { s with pending := rest }
    exact (step_of_idle hidle hp).trans (takeItem_read_of_some hr)
  · exact (step_of_idle hidle hp).trans (takeItem_read_of_some (hostRead_bit_of_lt hi))
  · exact (step_of_idle hidle hp).trans (takeItem_read_of_none (hostRead_bit_of_ge hi))
  · exact ⟨rfl, rfl, rfl, fun _ => hostRead_bit_of_lt, fun _ => hostRead_bit_of_ge, rfl, rfl, rfl,
      rfl, rfl, rfl, rfl, rfl, rfl, number_flag _, rfl, rfl, rfl, rfl, rfl, rfl, rfl,
      number_flag _, rfl, number_flag _, rfl, rfl, number_flag _, rfl, rfl, rfl,
      number_flag _, rfl, fun _ => rfl, fun _ => rfl⟩

/-! ### What a command writes and reads (R23 to R43, R262, R263) -/

/-- Settles O51: read off the ways a command ends, each naming every element it writes. -/
theorem elementsAreWrittenOnlyByTheirCommands :
    Obligations.ElementsAreWrittenOnlyByTheirCommands := by
  intro i s t h
  cases exec_end h <;> simp

/-- The end of a command writes `STATUS` whole, so what it held before is lost. -/
theorem exec_status_irrelevant (i : Instr) (s : State) (old : BitVec 8) :
    exec i { s with status := old } = exec i s := by
  cases i <;> rfl

/-- Settles O52. -/
theorem outcomeIgnoresTheOldStatus : Obligations.OutcomeIgnoresTheOldStatus :=
  exec_status_irrelevant

/-- Every command ends by writing `STATUS` from a 4-bit code. -/
theorem exec_end_setErr {i : Instr} {s t : State} (h : exec i s = .next t) :
    ∃ (u : State) (code : BitVec 4), t = u.setErr code := by
  cases exec_end h <;> exact ⟨_, _, rfl⟩

/-- Settles O49: an illegal word completes as `raise`, a legal one as its command. -/
theorem everyCommandWordCompletes : Obligations.EveryCommandWordCompletes := by
  intro cw s
  obtain ⟨u, code, h⟩ : ∃ u code, issueCommand cw s = .next (State.setErr code u) := by
    cases hd : decode cw with
    | error e => exact ⟨s, Err.illegal.code, by rw [issueCommand, hd]; rfl⟩
    | ok i =>
      obtain ⟨t, ht⟩ := exec_answers i s
      obtain ⟨u, code, rfl⟩ := exec_end_setErr ht
      exact ⟨u, code, by rw [issueCommand, hd]; exact ht⟩
  exact ⟨_, h, State.setErr_busy code u, (statusWord_toNat code).trans_lt code.isLt⟩

/-! ### The first command after reset (R302) -/

theorem armorText_nil : armorText [] = [] := by decide

theorem padBits_zero : padBits 0 = 0 := by decide

/-- The empty sequence armors as the empty text, without padding. -/
theorem exec_armEnc_resetWith (c : Config) :
    exec .armEnc (State.resetWith c) = .next (State.resetWith c) := by
  rw [exec_armEnc_of_le (by simp [padBits_zero]), State.resetWith_b, armorText_nil,
    List.length_nil, padBits_zero]
  rfl

/-- Settles O53: each command meets the first of its checks that empty registers fail, if any. -/
theorem commandsOnTheResetState : Obligations.CommandsOnTheResetState := by
  intro c k off wid id hwid
  obtain ⟨hlow, -⟩ := legalWidth_iff.mp hwid
  refine ⟨exec_bfUnpack_of_lt (by simp; omega), exec_armEnc_resetWith c,
    exec_armDec_of_le (s := State.resetWith c) (Nat.zero_le _) (Nat.zero_le _) rfl (Nat.zero_le _),
    exec_aisDispatch_of_lt (by simp), exec_aisCast_of_not_dispatched (by simp),
    exec_nmeaParse_of_plain (e := .format) rfl, exec_nmeaRender_of_error (e := .valueRange) rfl,
    exec_fragAdd_of_not_carrier rfl rfl, exec_fragEnd_of_no_fragment rfl rfl,
    exec_fragEnd_of_failed (by simp), fun hc => exec_fragForm_of_not_carrier hc⟩

/-! ### Pseudo-instructions (R104) -/

theorem runUntilError_of_error {item : HostItem} {rest : List HostItem} {s t : State}
    (h : takeItem item s = .next t) (hcmd : isCommand item = true) (herr : t.err ≠ 0#4) :
    runUntilError (item :: rest) s = .next t := by
  rw [runUntilError, h]
  exact if_pos (by simp [hcmd, herr])

theorem runUntilError_of_ok {item : HostItem} {rest : List HostItem} {s t : State}
    (h : takeItem item s = .next t) (hok : isCommand item = false ∨ t.err = 0#4) :
    runUntilError (item :: rest) s = runUntilError rest t := by
  rw [runUntilError, h]
  exact if_neg (by simpa using fun hcmd => hok.resolve_left (by simp [hcmd]))

/-- A command with nothing after it ends the pseudo-instruction, whatever its error. -/
theorem runUntilError_last {item : HostItem} {s t : State} (h : takeItem item s = .next t) :
    runUntilError [item] s = .next t := by
  rw [runUntilError, h]
  exact ite_id _

/-- Settles O54: the write is no command, and the pack is the last item. -/
theorem pseudoInstructionsExpandAndStop : Obligations.PseudoInstructionsExpandAndStop := by
  refine ⟨fun k off wid v s hwid => ?_, fun cw rest s t h =>
    ⟨runUntilError_of_error h rfl, fun hok => runUntilError_of_ok h (.inr hok)⟩⟩
  obtain ⟨t, ht⟩ := exec_answers (.bfPack k off wid) { s with val := v }
  have hpack : takeItem (present (.bfPack k off wid)) { s with val := v } = .next t :=
    (takeItem_command (decode_encode (i := .bfPack k off wid) hwid) _).trans ht
  calc (Pseudo.packV k off wid v).run s
      = runUntilError [present (.bfPack k off wid)] { s with val := v } :=
        runUntilError_of_ok (item := .write (.val v)) rfl (.inl rfl)
    _ = .next t := runUntilError_last hpack
    _ = exec (.bfPack k off wid) { s with val := v } := ht.symm

end Sys2Proof.Machine
end
